-- ==== Sys2Proof/Word.lean ====
section
/-! DEFINITION. The word types of the block (spec 00_scope.md R10, 30_encoding.md R60) and the two
extreme signed words. A word is 64 bits, bit 63 most significant; read as a signed value it is two's
complement (`BitVec.toInt`), read as unsigned it is `BitVec.toNat`. -/

namespace Sys2Proof

/-- A data word (R10): 64 bits. -/
abbrev Word := BitVec 64

/-- A command word (R60): 16 bits, bit 15 most significant (R41). -/
abbrev CmdWord := BitVec 16

/-- `MIN64 = -2^63` (R10), the least value of a signed word. -/
def min64 : Int := -9223372036854775808

/-- `MAX64 = 2^63 - 1` (R10), the greatest value of a signed word. -/
def max64 : Int := 9223372036854775807

end Sys2Proof
end

