-- ==== Sys2Proof/Config.lean ====
section
/-! DEFINITION. What is fixed when the block is built (spec 00_scope.md R4, 10_state.md R26): the two
instance parameters `F` and `TF`. Neither is changed by a command. An illegal pair is not an instance
of this hardware (R4, R243, U12): the type `Instance` has no value for it, and `Instance.build`
refuses it. -/

namespace Sys2Proof

/-- The instance parameters (R4): `F`, the number of fractional digits of operands and results, and
`TF`, the working precision of the series engines, with `0 <= F <= TF <= 18`. -/
structure Instance where
  /-- Output precision `F`. -/
  F : Nat
  /-- Working precision `TF`. -/
  TF : Nat
  /-- `TF >= F` is a requirement (conflict C1, decision D4). -/
  F_le_TF : F ≤ TF
  /-- `TF <= 18` (R4). -/
  TF_le_18 : TF ≤ 18
  deriving DecidableEq, Repr

/-- The constructor that refuses an illegal pair of parameters (R4, R243; decision D39). -/
def Instance.build (F TF : Nat) : Option Instance :=
  if h : F ≤ TF ∧ TF ≤ 18 then some ⟨F, TF, h.1, h.2⟩ else none

/-- The source's own example configuration, `F = 6`, `TF = 8` (00_scope.md section 4). It is the instance
that `State.reset` is written for; DESIGN CHOICE, log entry 1. -/
def exampleInstance : Instance := ⟨6, 8, by decide, by decide⟩

end Sys2Proof
end

