-- ==== Sys2Proof/Syntax.lean ====
section
/-! DEFINITION. The commands of the block. `Command` is what crosses the command port (spec
30_encoding.md R60); `Mnemonic` and `Format` are the names of the opcode map (R62, R64); `Instr` is
the decoded command, one constructor per row of spec/opcode_table.json, carrying exactly the operand
words and the immediate that the command uses (R61, R62). -/

namespace Sys2Proof

/-- One command as the host presents it (R60): a command word and two operand words. -/
structure Command where
  /-- The command word. -/
  cmd : CmdWord
  /-- Operand word `a`. -/
  a : Word
  /-- Operand word `b`. -/
  b : Word
  deriving DecidableEq, Repr

/-- The formats of R62: which operands and which immediate a command uses. -/
inductive Format where
  /-- no operand, no immediate -/
  | N
  /-- immediate only -/
  | NI
  /-- operand `a` -/
  | U
  /-- immediate and operand `a` -/
  | UI
  /-- operands `a` and `b` -/
  | B
  deriving DecidableEq, Repr

/-- The 31 mnemonics of the opcode map (R64). -/
inductive Mnemonic where
  | FROMRAW | FROMINT | FROMFLT | FROM2P | SCALE | CONST
  | ADD | SUB | NEG | ABS | MUL | DIV | REM
  | INCF | DECF
  | SQRT | FACT
  | NORM | SIN | COS | TAN | COT
  | SINH | COSH | TANH | COTH
  | LN | ASINH | ACOSH | ATANH | ACOTH
  deriving DecidableEq, Repr

/-- A decoded command. `a` and `b` are the operand words, `k` the constant index and `newF` the target
scale exponent, both `imm5` (R63). -/
inductive Instr where
  /-- R80: wrap a raw word unchanged. -/
  | fromraw (a : Word)
  /-- R81: construct from a plain integer. -/
  | fromint (a : Word)
  /-- R82: construct from a binary64 bit pattern. -/
  | fromflt (a : Word)
  /-- R83: construct from an integer part and a 19-digit fractional numerator. -/
  | from2p (a b : Word)
  /-- R84: the scale constant. -/
  | scale
  /-- R94: the named constant of index `k`. -/
  | const (k : BitVec 5)
  /-- R107: addition. -/
  | add (a b : Word)
  /-- R108: subtraction. -/
  | sub (a b : Word)
  /-- R109: negation. -/
  | neg (a : Word)
  /-- R110: absolute value. -/
  | abs (a : Word)
  /-- R111: multiplication. -/
  | mul (a b : Word)
  /-- R112: division. -/
  | div (a b : Word)
  /-- R113: remainder. -/
  | rem (a b : Word)
  /-- R122: widen to scale `newF`. -/
  | incf (newF : BitVec 5) (a : Word)
  /-- R123: narrow to scale `newF`. -/
  | decf (newF : BitVec 5) (a : Word)
  /-- R133: square root. -/
  | sqrt (a : Word)
  /-- R143: factorial. -/
  | fact (a : Word)
  /-- R163: angle normalisation. -/
  | norm (a : Word)
  /-- R166: sine. -/
  | sin (a : Word)
  /-- R167: cosine. -/
  | cos (a : Word)
  /-- R168: tangent. -/
  | tan (a : Word)
  /-- R169: cotangent. -/
  | cot (a : Word)
  /-- R182: hyperbolic sine. -/
  | sinh (a : Word)
  /-- R183: hyperbolic cosine. -/
  | cosh (a : Word)
  /-- R184: hyperbolic tangent. -/
  | tanh (a : Word)
  /-- R185: hyperbolic cotangent. -/
  | coth (a : Word)
  /-- R192: natural logarithm. -/
  | ln (a : Word)
  /-- R194: inverse hyperbolic sine. -/
  | asinh (a : Word)
  /-- R195: inverse hyperbolic cosine. -/
  | acosh (a : Word)
  /-- R196: inverse hyperbolic tangent. -/
  | atanh (a : Word)
  /-- R197: inverse hyperbolic cotangent. -/
  | acoth (a : Word)
  deriving DecidableEq, Repr

end Sys2Proof
end

