-- ==== Sys2Proof/WellFormed.lean ====
section
/-! DEFINITION. The instructions that some legal command word encodes: the range checks on the
immediate (spec 30_encoding.md R63, R65 checks 4 and 5). Every operand word is legal. -/

namespace Sys2Proof

/-- `imm5` is in the range its command allows: a constant index is 0..8 (R93), a target scale exponent
0..18 (R122, R123). Commands without immediate have nothing to check. -/
def Instr.wellFormed : Instr → Bool
  | .const k => k.toNat ≤ 8
  | .incf newF _ => newF.toNat ≤ 18
  | .decf newF _ => newF.toNat ≤ 18
  | .fromraw _ | .fromint _ | .fromflt _ | .from2p _ _ | .scale => true
  | .add _ _ | .sub _ _ | .neg _ | .abs _ | .mul _ _ | .div _ _ | .rem _ _ => true
  | .sqrt _ | .fact _ => true
  | .norm _ | .sin _ | .cos _ | .tan _ | .cot _ => true
  | .sinh _ | .cosh _ | .tanh _ | .coth _ => true
  | .ln _ | .asinh _ | .acosh _ | .atanh _ | .acoth _ => true

end Sys2Proof
end

