-- ==== Sys2Proof/Decode.lean ====
section
/-! DEFINITION. Decoding and encoding of commands (spec 30_encoding.md R60 to R66). Decoding is total:
every command word either names an instruction or fails one of the five checks of R65, by name. -/

namespace Sys2Proof

/-- The opcode map (R64). -/
def Mnemonic.opcode : Mnemonic → BitVec 6
  | .FROMRAW => 0x00 | .FROMINT => 0x01 | .FROMFLT => 0x02 | .FROM2P => 0x03
  | .SCALE => 0x04 | .CONST => 0x05
  | .ADD => 0x08 | .SUB => 0x09 | .NEG => 0x0A | .ABS => 0x0B
  | .MUL => 0x0C | .DIV => 0x0D | .REM => 0x0E
  | .INCF => 0x10 | .DECF => 0x11
  | .SQRT => 0x14 | .FACT => 0x15
  | .NORM => 0x18 | .SIN => 0x19 | .COS => 0x1A | .TAN => 0x1B | .COT => 0x1C
  | .SINH => 0x20 | .COSH => 0x21 | .TANH => 0x22 | .COTH => 0x23
  | .LN => 0x28 | .ASINH => 0x29 | .ACOSH => 0x2A | .ATANH => 0x2B | .ACOTH => 0x2C

/-- The format of each command (R62, R64). -/
def Mnemonic.format : Mnemonic → Format
  | .SCALE => .N
  | .CONST => .NI
  | .FROMRAW | .FROMINT | .FROMFLT | .NEG | .ABS | .SQRT | .FACT => .U
  | .NORM | .SIN | .COS | .TAN | .COT | .SINH | .COSH | .TANH | .COTH => .U
  | .LN | .ASINH | .ACOSH | .ATANH | .ACOTH => .U
  | .INCF | .DECF => .UI
  | .FROM2P | .ADD | .SUB | .MUL | .DIV | .REM => .B

/-- The 31 commands in the order of R64. -/
def allMnemonics : List Mnemonic :=
  [.FROMRAW, .FROMINT, .FROMFLT, .FROM2P, .SCALE, .CONST,
   .ADD, .SUB, .NEG, .ABS, .MUL, .DIV, .REM, .INCF, .DECF, .SQRT, .FACT,
   .NORM, .SIN, .COS, .TAN, .COT, .SINH, .COSH, .TANH, .COTH,
   .LN, .ASINH, .ACOSH, .ATANH, .ACOTH]

/-- The command of an opcode, `none` for the 33 unassigned ones (R65 check 2). -/
def mnemonicOf (op : BitVec 6) : Option Mnemonic :=
  allMnemonics.find? fun m => m.opcode == op

/-- Whether a format has an immediate field (R62). -/
def Format.hasImm : Format → Bool
  | .NI | .UI => true
  | .N | .U | .B => false

/-- Whether a format reads operand `a` (R62). -/
def Format.usesA : Format → Bool
  | .U | .UI | .B => true
  | .N | .NI => false

/-- Whether a format reads operand `b` (R62). -/
def Format.usesB : Format → Bool
  | .B => true
  | .N | .NI | .U | .UI => false

/-- `op = cmd[5:0]` (R60). -/
def opField (w : CmdWord) : BitVec 6 := w.extractLsb' 0 6

/-- `imm5 = cmd[10:6]` (R60). -/
def immField (w : CmdWord) : BitVec 5 := w.extractLsb' 6 5

/-- `zero = cmd[15:11]` (R60), reserved. -/
def zeroField (w : CmdWord) : BitVec 5 := w.extractLsb' 11 5

/-- The command word with the given fields and `zero = 0` (R60): `op + 64 * imm5`. -/
def commandWord (op : BitVec 6) (imm : BitVec 5) : CmdWord := 0#5 ++ imm ++ op

/-- Why a command word is illegal: the five checks of R65, in their order. Every one of them is the error
condition `IllegalCommand`. -/
inductive Illegal where
  /-- check 1: `cmd[15:11] != 0` -/
  | reservedBits
  /-- check 2: the opcode is unassigned -/
  | unassignedOpcode
  /-- check 3: `imm5 != 0` in a format without immediate -/
  | immediateNotZero
  /-- check 4: `CONST` with `imm5 > 8` -/
  | constantIndex
  /-- check 5: `INCF` or `DECF` with `imm5 > 18` -/
  | targetScale
  deriving DecidableEq, Repr

/-- The instruction of a mnemonic with its immediate and operand words; a word that the format does not
use is dropped (R61). -/
def Mnemonic.instr (m : Mnemonic) (imm : BitVec 5) (a b : Word) : Instr :=
  match m with
  | .FROMRAW => .fromraw a
  | .FROMINT => .fromint a
  | .FROMFLT => .fromflt a
  | .FROM2P => .from2p a b
  | .SCALE => .scale
  | .CONST => .const imm
  | .ADD => .add a b
  | .SUB => .sub a b
  | .NEG => .neg a
  | .ABS => .abs a
  | .MUL => .mul a b
  | .DIV => .div a b
  | .REM => .rem a b
  | .INCF => .incf imm a
  | .DECF => .decf imm a
  | .SQRT => .sqrt a
  | .FACT => .fact a
  | .NORM => .norm a
  | .SIN => .sin a
  | .COS => .cos a
  | .TAN => .tan a
  | .COT => .cot a
  | .SINH => .sinh a
  | .COSH => .cosh a
  | .TANH => .tanh a
  | .COTH => .coth a
  | .LN => .ln a
  | .ASINH => .asinh a
  | .ACOSH => .acosh a
  | .ATANH => .atanh a
  | .ACOTH => .acoth a

/-- Decoding of a command (R65): the five checks in their order; a command that passes all of them is an
instruction. -/
def decode (c : Command) : Except Illegal Instr :=
  if zeroField c.cmd ≠ 0 then .error .reservedBits
  else
    match mnemonicOf (opField c.cmd) with
    | none => .error .unassignedOpcode
    | some m =>
      if m.format.hasImm = false ∧ immField c.cmd ≠ 0 then .error .immediateNotZero
      else if m = .CONST ∧ 8 < (immField c.cmd).toNat then .error .constantIndex
      else if (m = .INCF ∨ m = .DECF) ∧ 18 < (immField c.cmd).toNat then .error .targetScale
      else .ok (m.instr (immField c.cmd) c.a c.b)

/-- What an instruction is made of: its mnemonic, its immediate and its operand words, with 0 in the
fields that its format does not use (R62; R70: the assembler sets unused operands to 0). -/
def Instr.parts : Instr → Mnemonic × BitVec 5 × Word × Word
  | .fromraw a => (.FROMRAW, 0, a, 0)
  | .fromint a => (.FROMINT, 0, a, 0)
  | .fromflt a => (.FROMFLT, 0, a, 0)
  | .from2p a b => (.FROM2P, 0, a, b)
  | .scale => (.SCALE, 0, 0, 0)
  | .const k => (.CONST, k, 0, 0)
  | .add a b => (.ADD, 0, a, b)
  | .sub a b => (.SUB, 0, a, b)
  | .neg a => (.NEG, 0, a, 0)
  | .abs a => (.ABS, 0, a, 0)
  | .mul a b => (.MUL, 0, a, b)
  | .div a b => (.DIV, 0, a, b)
  | .rem a b => (.REM, 0, a, b)
  | .incf newF a => (.INCF, newF, a, 0)
  | .decf newF a => (.DECF, newF, a, 0)
  | .sqrt a => (.SQRT, 0, a, 0)
  | .fact a => (.FACT, 0, a, 0)
  | .norm a => (.NORM, 0, a, 0)
  | .sin a => (.SIN, 0, a, 0)
  | .cos a => (.COS, 0, a, 0)
  | .tan a => (.TAN, 0, a, 0)
  | .cot a => (.COT, 0, a, 0)
  | .sinh a => (.SINH, 0, a, 0)
  | .cosh a => (.COSH, 0, a, 0)
  | .tanh a => (.TANH, 0, a, 0)
  | .coth a => (.COTH, 0, a, 0)
  | .ln a => (.LN, 0, a, 0)
  | .asinh a => (.ASINH, 0, a, 0)
  | .acosh a => (.ACOSH, 0, a, 0)
  | .atanh a => (.ATANH, 0, a, 0)
  | .acoth a => (.ACOTH, 0, a, 0)

/-- The encoder (R60, R64): the command that a host presents for an instruction. -/
def encode (i : Instr) : Command :=
  ⟨commandWord i.parts.1.opcode i.parts.2.1, i.parts.2.2.1, i.parts.2.2.2⟩

/-- The command that lies in the bits of an opcode-table word: the command word is bits 15..0, operand
`a` bits 79..16 and operand `b` bits 143..80, each bit above `nbits` being 0. The table gives a row the
16 bits of its command word, so both operand words are words of zeros. -/
def tableCommand (nbits w : Nat) : Command :=
  let v := w % 2 ^ nbits
  ⟨BitVec.ofNat 16 v, BitVec.ofNat 64 (v / 2 ^ 16), BitVec.ofNat 64 (v / 2 ^ 80)⟩

/-- The instruction that the decoder reads from an opcode-table word. -/
def decodeTableWord (nbits w : Nat) : Option Instr :=
  match decode (tableCommand nbits w) with
  | .ok i => some i
  | .error _ => none

end Sys2Proof
end

