-- ==== Sys2Proof/Machine/State.lean ====
section
/-! DEFINITION. The state of the block (spec 10_state.md R21 to R33, 70_reset_and_hazards.md R240, R241):
the registers `Y`, `ERR` and `BUSY` with the command in flight, the output `rsp_valid`, the instance
parameters, and the host's driving of the input ports still to come. The block has no register file
(R20), no program counter (R24), no flags (R25), no memory (R40), no modes (R220), no interrupts (R216),
no timers (R221): the state has no field for any of them. -/

namespace Sys2Proof.Machine

/-- The error conditions of R210. Raising one is a completion of the command (R213), not a stop of the
machine. -/
inductive ErrorCondition where
  /-- code 1: NaN passed to a float constructor -/
  | invalidFloatInput
  /-- code 2: divisor's raw value is zero -/
  | divisionByZero
  /-- code 3: sqrt of a negative operand -/
  | negativeSquareRoot
  /-- code 4: factorial of a negative or non-integral operand -/
  | negativeOrNonIntegerFactorial
  /-- code 5: factorial of an operand whose integer part exceeds 20 -/
  | factorialOverflow
  /-- code 6: ln of zero or a negative operand -/
  | nonPositiveLogarithm
  /-- code 7: widening to a smaller scale, or narrowing to a larger one -/
  | precisionDirectionViolation
  /-- code 8: the command word is not one of the 75 legal words -/
  | illegalCommand
  deriving DecidableEq, Repr

/-- What the host drives on the input ports (R32) during one step, and how far the block's work gets in
it. Ports that nobody reads in the step may hold anything. -/
structure Tick where
  /-- Port `rst`: reset (R240). -/
  rst : Bool
  /-- Port `cmd_valid`: the host presents a command. -/
  cmdValid : Bool
  /-- Ports `cmd`, `a`, `b`: the command presented. -/
  command : Command
  /-- Whether the open latency `LATENCY(op, a, b)` of the command in flight (R247) has run out by the
  end of this step. It is no port: it stands for the timing that the spec leaves open (log entry 3). -/
  elapsed : Bool
  deriving DecidableEq, Repr

/-- The ports when the host drives nothing: no reset, no command, and time passes. -/
def Tick.quiet : Tick := ⟨false, false, ⟨0, 0, 0⟩, true⟩

/-- The state of the block and of its input ports. -/
structure State where
  /-- The instance parameters `F`, `TF` (R4). Build-time constants, not registers: no step changes
  them (R26); they stand here so that one model is every instance (log entry 1). -/
  inst : Instance
  /-- Register `Y` (R21): the result of the last command that completed without error. -/
  y : Word
  /-- Register `ERR` (R22): the error code of the last completed command. -/
  err : BitVec 4
  /-- The command in flight (R33): the words sampled at acceptance, kept until completion. Register
  `BUSY` (R23) is 1 exactly while there is one (`State.busy`). -/
  inFlight : Option Command
  /-- Output `rsp_valid` (R32): true when a command completed in the step that led here. -/
  rspValid : Bool
  /-- The host's driving of the input ports in the steps to come, oldest first; with none left the host
  drives nothing (`Tick.quiet`). The model's own field (log entry 2). -/
  ticks : List Tick
  deriving DecidableEq, Repr

/-- Faults. There is none: an error condition is reported in `ERR` and the block goes on (R213), and no
command, legal or not, hangs it (93_implementation_defined.md: nothing is stuck). No definition raises a
fault; that is safe, since no step is left out by it. -/
inductive Fault where
  deriving DecidableEq, Repr

/-- Refusals. -/
inductive Refusal where
  /-- Raised by an arm of `exec` whose instruction has no meaning yet; no arm does. Safe: a refused
  instruction has no next state to prove anything of. -/
  | notModelled (mnemonic : String)
  deriving DecidableEq, Repr

/-- The state after reset of an instance, with the host's coming driving of the ports (R31, R240, R241). -/
def State.resetOf (p : Instance) (ticks : List Tick) : State :=
  { inst := p, y := 0, err := 0, inFlight := none, rspValid := false, ticks := ticks }

/-- The machine right after reset, nothing presented by the host. -/
def State.reset : State := State.resetOf exampleInstance []

end Sys2Proof.Machine
end

