-- ==== Sys2Proof/Machine/Flags.lean ====
section
/-! DEFINITION. The status of the block. There are no flags and no condition codes (spec 10_state.md R25);
the only status is the code in `ERR` (60_exceptions.md R210), and the bit `BUSY` with the outputs that
show it (10_state.md R23, R32). -/

namespace Sys2Proof.Machine

/-- The code of an error condition (R210); code 0 is "no error", codes 9 to 15 are never produced. -/
def ErrorCondition.code : ErrorCondition → BitVec 4
  | .invalidFloatInput => 1
  | .divisionByZero => 2
  | .negativeSquareRoot => 3
  | .negativeOrNonIntegerFactorial => 4
  | .factorialOverflow => 5
  | .nonPositiveLogarithm => 6
  | .precisionDirectionViolation => 7
  | .illegalCommand => 8

/-- Register `BUSY` (R23): 1 from the acceptance of a command until its completion. -/
def State.busy (s : State) : Bool := s.inFlight.isSome

/-- The driving of the ports in the next step. -/
def State.tick (s : State) : Tick := s.ticks.headD Tick.quiet

/-- Output `cmd_ready` (R32): not `BUSY`, and 0 while `rst = 1`. -/
def State.cmdReady (s : State) : Bool := !s.busy && !s.tick.rst

/-- Output `y` (R32): register `Y`, the accessor "raw value" (R85). -/
def State.portY (s : State) : Word := s.y

/-- Output `err` (R32): register `ERR`. -/
def State.portErr (s : State) : BitVec 4 := s.err

end Sys2Proof.Machine
end

