-- ==== Sys2Proof/Machine/Operands.lean ====
section
/-! DEFINITION. How a command reads its operand words (spec 30_encoding.md R61, R63): as signed words, with
the exceptions of `FROM2P` (`b` unsigned) and `FROMFLT` (`a` a binary64 bit pattern, 40_construction.md
R82). -/

namespace Sys2Proof.Machine

/-- A word read as a signed value (R10). -/
def signed (w : Word) : Int := w.toInt

/-- A word read as an unsigned value (R10); only operand `b` of `FROM2P`. -/
def unsigned (w : Word) : Int := (w.toNat : Int)

/-- The immediate, an unsigned integer used as it stands (R63). -/
def immediate (k : BitVec 5) : Nat := k.toNat

/-- The sign bit `a[63]` of a binary64 pattern (R82). -/
def fltSign (a : Word) : Bool := a.getLsbD 63

/-- The biased exponent `a[62:52]` of a binary64 pattern (R82). -/
def fltExp (a : Word) : Nat := (a.extractLsb' 52 11).toNat

/-- The fraction `a[51:0]` of a binary64 pattern (R82). -/
def fltFrac (a : Word) : Nat := (a.extractLsb' 0 52).toNat

end Sys2Proof.Machine
end

