-- ==== Sys2Proof/Machine/Ops.lean ====
section
/-! DEFINITION. The shared operations: arithmetic on unbounded integers (spec 00_scope.md R5 to R9), and what
accepting, completing, aborting a command and reset do to the state (10_state.md R33, 60_exceptions.md R212,
R213, 70_reset_and_hazards.md R240). Integers are unbounded; an operation wraps or saturates only where it
says `wrap64` or `sat64`. -/

namespace Sys2Proof.Machine

/-- The outcome of a step of this machine. -/
abbrev Outcome := Host.Outcome State Fault Refusal

/-- What a command's rule computes: the word for `Y`, or the error condition it raises. -/
abbrev Result := Except ErrorCondition Int

/-! ### Integers -/

/-- R5: the integer of the signed range congruent to `z` modulo `2^64`. -/
def wrap64 (z : Int) : Int := z.bmod 18446744073709551616

/-- R6: clamping to the signed range. -/
def sat64 (z : Int) : Int := if max64 < z then max64 else if z < min64 then min64 else z

/-- R7: the quotient truncated toward zero. -/
def tdiv (n d : Int) : Int := Int.tdiv n d

/-- R7: the remainder of the truncated quotient. -/
def trem (n d : Int) : Int := n - d * tdiv n d

/-- R8: `n / d` rounded to the nearest integer, ties away from zero, for `d > 0`. -/
def rha (n d : Int) : Int := n.sign * ((2 * (n.natAbs : Int) + d) / (2 * d))

/-- R9: `10^k`. -/
def p10 (k : Nat) : Int := ((10 ^ k : Nat) : Int)

/-- `2^k`, for the binary exponent of R82. -/
def pow2 (k : Nat) : Int := ((2 ^ k : Nat) : Int)

/-! ### Commands and the state -/

/-- R212: successful completion, one indivisible update. -/
def State.complete (v : Int) (s : State) : State :=
  { s with y := BitVec.ofInt 64 v, err := 0, inFlight := none, rspValid := true }

/-- R213: completion in error, the whole of what raising a condition does. It saves nothing and goes
nowhere: there is no program counter, no mode and no handler; there is no return from it (R217). -/
def State.raiseError (e : ErrorCondition) (s : State) : State :=
  { s with err := e.code, inFlight := none, rspValid := true }

/-- The end of every command: completion with the word its rule computed, or in error. -/
def conclude (r : Result) (s : State) : Outcome :=
  match r with
  | .ok v => .next (s.complete v)
  | .error e => .next (s.raiseError e)

/-- R240: the effect of `rst = 1` at a clock edge; a command in flight is abandoned, `rsp_valid` does not
pulse. -/
def State.applyReset (s : State) : State :=
  { s with y := 0, err := 0, inFlight := none, rspValid := false }

/-- R33: the block samples the command on the ports when one is presented and it is not busy; a command
presented while it is busy has no effect. -/
def State.accept (t : Tick) (s : State) : State :=
  match s.inFlight with
  | some _ => s
  | none => if t.cmdValid then { s with inFlight := some t.command } else s

/-- The ports move on: this step's driving is used up and the pulse of `rsp_valid` ends (R33). -/
def State.advance (s : State) : State := { s with ticks := s.ticks.tail, rspValid := false }

end Sys2Proof.Machine
end

