-- ==== Sys2Proof/Machine/ConstantRom.lean ====
section
/-! DEFINITION. The part `constant_rom` (spec 41_constant_rom.md): the table `ROM_C`, the rule that turns an
entry into a word at a scale, and the command `CONST`. -/

namespace Sys2Proof.Machine

/-- An entry of the constant ROM (R90). -/
structure RomEntry where
  /-- the integer part -/
  ip : Nat
  /-- the first 19 decimal digits of the fractional part, as one number -/
  fn : Nat
  deriving DecidableEq, Repr

/-- The constant ROM (R91), entries 2 to 8 in order: pi, tau, phi, gamma, sqrt 2, e, ln 2. -/
def romC : List RomEntry :=
  [⟨3, 1415926535897932384⟩, ⟨6, 2831853071795864769⟩, ⟨1, 6180339887498948482⟩,
   ⟨0, 5772156649015328606⟩, ⟨1, 4142135623730950488⟩, ⟨2, 7182818284590452353⟩,
   ⟨0, 6931471805599453094⟩]

/-- The value `ip + fn / 10^19` of an integer part and a numerator at scale `s`, rounded half away from
zero; the arithmetic of `from_two_part` (R83, R92), before any saturation. -/
def twoPart (s : Nat) (ip fn : Int) : Int := ip * p10 s + rha fn (p10 (19 - s))

/-- R92: the raw word of constant `k` at scale `s`, for `k <= 8`. -/
def constWord (s k : Nat) : Int :=
  match k with
  | 0 => 0
  | 1 => p10 s
  | k + 2 =>
    match romC[k]? with
    | some e => twoPart s e.ip e.fn
    | none => 0

/-- The word of pi at scale `s`. -/
def piWord (s : Nat) : Int := constWord s 2

/-- The word of tau at scale `s`. -/
def tauWord (s : Nat) : Int := constWord s 3

/-- The word of ln 2 at scale `s`. -/
def ln2Word (s : Nat) : Int := constWord s 8

/-- `CONST #k` (R94). -/
def execConst (k : BitVec 5) (s : State) : Outcome :=
  conclude (if 8 < immediate k then .error .illegalCommand
    else .ok (constWord s.inst.F (immediate k))) s

end Sys2Proof.Machine
end

