-- ==== Sys2Proof/Machine/Construction.lean ====
section
/-! DEFINITION. Construction and accessor commands (spec 40_construction.md). -/

namespace Sys2Proof.Machine

/-- `FROMRAW a` (R80). -/
def execFromraw (a : Word) (s : State) : Outcome := conclude (.ok (signed a)) s

/-- `FROMINT a` (R81). -/
def execFromint (a : Word) (s : State) : Outcome :=
  conclude (.ok (sat64 (signed a * p10 s.inst.F))) s

/-- The significand of a finite binary64 pattern (R82): subnormal or normal. -/
def fltSignificand (a : Word) : Int :=
  if fltExp a = 0 then (fltFrac a : Int) else pow2 52 + (fltFrac a : Int)

/-- The exponent of 2 that the significand is multiplied by (R82). -/
def fltExponent (a : Word) : Int := if fltExp a = 0 then -1074 else (fltExp a : Int) - 1075

/-- The magnitude of a finite binary64 value at scale `f`: the exact product with `10^f`, rounded once
(R82). -/
def fltMagnitude (f : Nat) (a : Word) : Int :=
  if 0 ≤ fltExponent a then fltSignificand a * p10 f * pow2 (fltExponent a).toNat
  else rha (fltSignificand a * p10 f) (pow2 (-fltExponent a).toNat)

/-- The value constructed from a binary64 pattern at scale `f` (R82). -/
def fromFlt (f : Nat) (a : Word) : Result :=
  if fltExp a = 2047 ∧ fltFrac a ≠ 0 then .error .invalidFloatInput
  else if fltExp a = 2047 then .ok (if fltSign a then min64 else max64)
  else .ok (sat64 (if fltSign a then -fltMagnitude f a else fltMagnitude f a))

/-- `FROMFLT a` (R82). -/
def execFromflt (a : Word) (s : State) : Outcome := conclude (fromFlt s.inst.F a) s

/-- `FROM2P a, b` (R83): `b` is read unsigned. -/
def execFrom2p (a b : Word) (s : State) : Outcome :=
  conclude (.ok (sat64 (twoPart s.inst.F (signed a) (unsigned b)))) s

/-- `SCALE` (R84). -/
def execScale (s : State) : Outcome := conclude (.ok (p10 s.inst.F)) s

end Sys2Proof.Machine
end

