-- ==== Sys2Proof/Machine/Factorial.lean ====
section
/-! DEFINITION. Factorial by table lookup (spec 45_factorial.md). -/

namespace Sys2Proof.Machine

/-- The factorial ROM (R141), entries 0 to 20. -/
def romF : List Nat :=
  [1, 1, 2, 6, 24, 120, 720, 5040, 40320, 362880, 3628800, 39916800, 479001600, 6227020800,
   87178291200, 1307674368000, 20922789888000, 355687428096000, 6402373705728000,
   121645100408832000, 2432902008176640000]

/-- R142: the factorial at scale `s`; the negative or non-integral operand is tested first (R218), the
entry is multiplied by the scale and saturated (R144). -/
def fxFact (s : Nat) (v : Int) : Result :=
  if v < 0 ∨ trem v (p10 s) ≠ 0 then .error .negativeOrNonIntegerFactorial
  else if 20 < tdiv v (p10 s) then .error .factorialOverflow
  else .ok (sat64 ((romF.getD (tdiv v (p10 s)).toNat 0 : Int) * p10 s))

/-- `FACT a` (R143). -/
def execFact (a : Word) (s : State) : Outcome := conclude (fxFact s.inst.F (signed a)) s

end Sys2Proof.Machine
end

