-- ==== Sys2Proof/Machine/Precision.lean ====
section
/-! DEFINITION. Precision conversion (spec 43_precision_conversion.md): widening and narrowing, the path of
the engine commands through the working precision, and the commands `INCF` and `DECF`. -/

namespace Sys2Proof.Machine

/-- R120: the word of the same value at the larger scale `s2`, saturating. -/
def widen (s1 s2 : Nat) (v : Int) : Int := sat64 (v * p10 (s2 - s1))

/-- R121: the nearest word at the smaller scale `s2`. -/
def narrow (s1 s2 : Nat) (v : Int) : Int := rha v (p10 (s1 - s2))

/-- R124: the engine commands compute `narrow(TF, F, g(widen(F, TF, a)))`, `g` a function on words at
scale `TF`; an error that `g` raises is the command's (R198). -/
def engine (p : Instance) (g : Nat → Int → Result) (a : Word) : Result :=
  (g p.TF (widen p.F p.TF (signed a))).map (narrow p.TF p.F)

/-- `INCF #newF, a` (R122). -/
def execIncf (newF : BitVec 5) (a : Word) (s : State) : Outcome :=
  conclude
    (if 18 < immediate newF then .error .illegalCommand
     else if immediate newF < s.inst.F then .error .precisionDirectionViolation
     else .ok (widen s.inst.F (immediate newF) (signed a))) s

/-- `DECF #newF, a` (R123). -/
def execDecf (newF : BitVec 5) (a : Word) (s : State) : Outcome :=
  conclude
    (if 18 < immediate newF then .error .illegalCommand
     else if s.inst.F < immediate newF then .error .precisionDirectionViolation
     else .ok (narrow s.inst.F (immediate newF) (signed a))) s

end Sys2Proof.Machine
end

