-- ==== Sys2Proof/Machine/Arithmetic.lean ====
section
/-! DEFINITION. The operator functions and the arithmetic commands (spec 42_arithmetic.md). The functions
are used at scale `F` by the commands and at scale `TF` by the engines. -/

namespace Sys2Proof.Machine

/-- R100. -/
def fxAdd (a b : Int) : Int := wrap64 (a + b)

/-- R101. -/
def fxSub (a b : Int) : Int := wrap64 (a - b)

/-- R102. -/
def fxNeg (a : Int) : Int := wrap64 (-a)

/-- R103. -/
def fxAbs (a : Int) : Int := if 0 ≤ a then a else fxNeg a

/-- R104: adding half of the scale with the sign of the wrapped product `p`, then dividing. -/
def scaleProduct (sc p : Int) : Int :=
  tdiv (if 0 ≤ p then wrap64 (p + tdiv sc 2) else wrap64 (p - tdiv sc 2)) sc

/-- R104: the product at scale `s`. -/
def fxMul (s : Nat) (a b : Int) : Int := scaleProduct (p10 s) (wrap64 (a * b))

/-- R105: the wrapped scaled dividend `n` moved away from zero by half of the divisor, when the divisor
is `b`. -/
def pushAway (n b : Int) : Int :=
  if (0 ≤ n ↔ 0 < b) then wrap64 (n + tdiv b 2) else wrap64 (n - tdiv b 2)

/-- R105: the quotient at scale `s`. -/
def fxDiv (s : Nat) (a b : Int) : Result :=
  if b = 0 then .error .divisionByZero
  else .ok (wrap64 (tdiv (pushAway (wrap64 (a * p10 s)) b) b))

/-- R106: the truncated remainder. -/
def fxRem (a b : Int) : Result := if b = 0 then .error .divisionByZero else .ok (trem a b)

/-- `ADD a, b` (R107). -/
def execAdd (a b : Word) (s : State) : Outcome := conclude (.ok (fxAdd (signed a) (signed b))) s

/-- `SUB a, b` (R108). -/
def execSub (a b : Word) (s : State) : Outcome := conclude (.ok (fxSub (signed a) (signed b))) s

/-- `NEG a` (R109). -/
def execNeg (a : Word) (s : State) : Outcome := conclude (.ok (fxNeg (signed a))) s

/-- `ABS a` (R110). -/
def execAbs (a : Word) (s : State) : Outcome := conclude (.ok (fxAbs (signed a))) s

/-- `MUL a, b` (R111). -/
def execMul (a b : Word) (s : State) : Outcome :=
  conclude (.ok (fxMul s.inst.F (signed a) (signed b))) s

/-- `DIV a, b` (R112). -/
def execDiv (a b : Word) (s : State) : Outcome :=
  conclude (fxDiv s.inst.F (signed a) (signed b)) s

/-- `REM a, b` (R113). -/
def execRem (a b : Word) (s : State) : Outcome := conclude (fxRem (signed a) (signed b)) s

end Sys2Proof.Machine
end

