-- ==== Sys2Proof/Machine/Series.lean ====
section
/-! DEFINITION. The part `taylor_series_accumulator` (spec 46_series_accumulator.md). -/

namespace Sys2Proof.Machine

/-- R152: the threshold, one raw unit. -/
def epsRaw : Int := 1

/-- R153: the iteration cap of the tier of `TF`. -/
def maxIter (tf : Nat) : Nat := if tf ≤ 6 then 16 else if tf ≤ 12 then 24 else 40

/-- The loop of R151 with `fuel` passes left: index `n`, current term `t`, running sum `s`. The term is
tested before the next one is made; the next one is added after it is made. -/
def seriesLoop (step : Int → Nat → Int) : Nat → Nat → Int → Int → Int
  | 0, _, _, s => s
  | fuel + 1, n, t, s =>
    if (t.natAbs : Int) < epsRaw then s
    else seriesLoop step fuel (n + 1) (step t n) (wrap64 (s + step t n))

/-- R151: the sum of the series with first term `t0`. -/
def series (tf : Nat) (t0 : Int) (step : Int → Nat → Int) : Int :=
  seriesLoop step (maxIter tf) 1 t0 t0

/-- R154: the one shape of every step function, `rha(fx_mul(TF, t, m) * p(n), q(n))`. -/
def seriesStep (tf : Nat) (m : Int) (p q : Nat → Int) (t : Int) (n : Nat) : Int :=
  rha (fxMul tf t m * p n) (q n)

/-- The divisor `(2n)(2n+1)` of the sine and hyperbolic sine series (R154). -/
def sineDivisor (n : Nat) : Int := 2 * n * (2 * n + 1)

/-- The divisor `(2n)(2n-1)` of the hyperbolic cosine series (R154). -/
def cosineDivisor (n : Nat) : Int := 2 * n * (2 * n - 1)

/-- The factor `p(n) = 1` of the sine and hyperbolic series (R154). -/
def unitFactor (_ : Nat) : Int := 1

/-- The factor `2n-1` of the logarithm series (R154). -/
def oddFactor (n : Nat) : Int := 2 * n - 1

/-- The divisor `2n+1` of the logarithm series (R154). -/
def oddDivisor (n : Nat) : Int := 2 * n + 1

end Sys2Proof.Machine
end

