-- ==== Sys2Proof/Machine/Hyperbolic.lean ====
section
/-! DEFINITION. The part `hyperbolic_engine` (spec 48_hyperbolic.md). There is no range reduction. -/

namespace Sys2Proof.Machine

/-- R180: hyperbolic sine at scale `TF`. -/
def sinhTf (tf : Nat) (x : Int) : Int :=
  series tf x (seriesStep tf (fxMul tf x x) unitFactor sineDivisor)

/-- R181: hyperbolic cosine at scale `TF`, its own series from the constant one. -/
def coshTf (tf : Nat) (x : Int) : Int :=
  series tf (p10 tf) (seriesStep tf (fxMul tf x x) unitFactor cosineDivisor)

/-- R187: hyperbolic tangent at scale `TF`; a zero divisor raises `DivisionByZero`. -/
def tanhTf (tf : Nat) (x : Int) : Result := fxDiv tf (sinhTf tf x) (coshTf tf x)

/-- R187: hyperbolic cotangent at scale `TF`. -/
def cothTf (tf : Nat) (x : Int) : Result := fxDiv tf (coshTf tf x) (sinhTf tf x)

/-- `SINH a` (R182). -/
def execSinh (a : Word) (s : State) : Outcome :=
  conclude (engine s.inst (fun tf x => .ok (sinhTf tf x)) a) s

/-- `COSH a` (R183). -/
def execCosh (a : Word) (s : State) : Outcome :=
  conclude (engine s.inst (fun tf x => .ok (coshTf tf x)) a) s

/-- `TANH a` (R184). -/
def execTanh (a : Word) (s : State) : Outcome := conclude (engine s.inst tanhTf a) s

/-- `COTH a` (R185). -/
def execCoth (a : Word) (s : State) : Outcome := conclude (engine s.inst cothTf a) s

end Sys2Proof.Machine
end

