-- ==== Sys2Proof/Machine/Sqrt.lean ====
section
/-! DEFINITION. The part `newton_raphson_sqrt` (spec 44_sqrt.md). -/

namespace Sys2Proof.Machine

/-- The Newton-Raphson loop of R131 for the radicand `n`, at most `fuel` passes, from the iterate `x0`.
All values are non-negative, so both truncating divisions are division of naturals. -/
def isqrtLoop (n : Nat) : Nat → Nat → Nat
  | 0, x0 => x0
  | fuel + 1, x0 =>
    let x1 := (x0 + n / x0) / 2
    if x0 ≤ x1 then x0 else isqrtLoop n fuel x1

/-- R131, R134: the integer square root from the seed `n`; 128 passes are the rule's own static bound and
are never all used for a radicand of this block, `n < 2^123`. -/
def isqrt (n : Nat) : Nat := isqrtLoop n 128 n

/-- R132: rounding to nearest. -/
def roundRoot (n r : Nat) : Nat := if r < n - r * r then r + 1 else r

/-- R130: the square root at scale `s`; the radicand is the full product, never wrapped. -/
def fxSqrt (s : Nat) (v : Int) : Result :=
  if v < 0 then .error .negativeSquareRoot
  else if v = 0 then .ok 0
  else
    let n := (v * p10 s).toNat
    .ok (roundRoot n (isqrt n) : Int)

/-- `SQRT a` (R133). -/
def execSqrt (a : Word) (s : State) : Outcome := conclude (fxSqrt s.inst.F (signed a)) s

end Sys2Proof.Machine
end

