-- ==== Sys2Proof/Machine/Logarithm.lean ====
section
/-! DEFINITION. The part `logarithm_engine`: the natural logarithm and the inverse hyperbolic functions
(spec 49_logarithm.md). -/

namespace Sys2Proof.Machine

/-- The halving loop of R190, at most `fuel` passes: word `x`, count `k`. -/
def halveLoop (two : Int) : Nat → Int → Int → Int × Int
  | 0, x, k => (x, k)
  | fuel + 1, x, k =>
    if two < x then halveLoop two fuel (tdiv x 2) (k + 1) else (x, k)

/-- The doubling loop of R190, at most `fuel` passes: word `x`, count `k`. -/
def doubleLoop (half : Int) : Nat → Int → Int → Int × Int
  | 0, x, k => (x, k)
  | fuel + 1, x, k => if x < half then doubleLoop half fuel (2 * x) (k - 1) else (x, k)

/-- R190: range reduction into `[HALF, TWO]`, the reduced word and the count of halvings less doublings.
64 passes bound both loops (R190: at most 62 halvings and 59 doublings). -/
def reduceLn (tf : Nat) (x : Int) : Int × Int :=
  let h := halveLoop (2 * p10 tf) 64 x 0
  doubleLoop (tdiv (p10 tf) 2) 64 h.1 h.2

/-- R191: `2 artanh(y) + k ln 2` for the reduced quotient `y`, wrapped once. -/
def lnFromQuotient (tf : Nat) (k y : Int) : Int :=
  wrap64 (2 * series tf y (seriesStep tf (fxMul tf y y) oddFactor oddDivisor) + k * ln2Word tf)

/-- R191: natural logarithm at scale `TF`. -/
def lnTf (tf : Nat) (x : Int) : Result :=
  if x ≤ 0 then .error .nonPositiveLogarithm
  else
    let r := reduceLn tf x
    (fxDiv tf (r.1 - p10 tf) (r.1 + p10 tf)).map (lnFromQuotient tf r.2)

/-- R193: `ln(x + sqrt(x^2 + 1))`. -/
def asinhTf (tf : Nat) (x : Int) : Result :=
  (fxSqrt tf (fxAdd (fxMul tf x x) (p10 tf))).bind fun r => lnTf tf (fxAdd x r)

/-- R193: `ln(x + sqrt(x^2 - 1))`. -/
def acoshTf (tf : Nat) (x : Int) : Result :=
  (fxSqrt tf (fxSub (fxMul tf x x) (p10 tf))).bind fun r => lnTf tf (fxAdd x r)

/-- R193: half of a logarithm, rounded half away. -/
def halfLn (tf : Nat) (q : Int) : Result := (lnTf tf q).map fun l => rha l 2

/-- R193: `ln((1+x)/(1-x)) / 2`. -/
def atanhTf (tf : Nat) (x : Int) : Result :=
  (fxDiv tf (fxAdd (p10 tf) x) (fxSub (p10 tf) x)).bind (halfLn tf)

/-- R193: `ln((x+1)/(x-1)) / 2`. -/
def acothTf (tf : Nat) (x : Int) : Result :=
  (fxDiv tf (fxAdd x (p10 tf)) (fxSub x (p10 tf))).bind (halfLn tf)

/-- `LN a` (R192): the operand is tested before widening. -/
def execLn (a : Word) (s : State) : Outcome :=
  conclude (if signed a ≤ 0 then .error .nonPositiveLogarithm else engine s.inst lnTf a) s

/-- `ASINH a` (R194). -/
def execAsinh (a : Word) (s : State) : Outcome := conclude (engine s.inst asinhTf a) s

/-- `ACOSH a` (R195). -/
def execAcosh (a : Word) (s : State) : Outcome := conclude (engine s.inst acoshTf a) s

/-- `ATANH a` (R196). -/
def execAtanh (a : Word) (s : State) : Outcome := conclude (engine s.inst atanhTf a) s

/-- `ACOTH a` (R197). -/
def execAcoth (a : Word) (s : State) : Outcome := conclude (engine s.inst acothTf a) s

end Sys2Proof.Machine
end

