-- ==== Sys2Proof/Machine/Trig.lean ====
section
/-! DEFINITION. The part `trig_range_reducer` and the trigonometric commands (spec 47_trig.md). -/

namespace Sys2Proof.Machine

/-- R160: the word for pi/2 at scale `s`. -/
def halfPi (s : Nat) : Int := tdiv (piWord s) 2

/-- R161: the angle less the nearest whole number of turns, if it exceeds one full turn. -/
def unwind (s : Nat) (a : Int) : Int :=
  if tauWord s < a ∨ a < -tauWord s then a - rha a (tauWord s) * tauWord s else a

/-- R161: the single conditional adjustment into `[-PI, PI]`. -/
def fold (s : Nat) (r : Int) : Int :=
  if piWord s < r then r - tauWord s else if r < -piWord s then r + tauWord s else r

/-- R161: angle normalisation at scale `s`, on unbounded integers. -/
def normAngle (s : Nat) (a : Int) : Int := fold s (unwind s a)

/-- R162: reflection of a normalised angle into `[-HALFPI, HALFPI]`. -/
def reflect (s : Nat) (x : Int) : Int :=
  if halfPi s < x then piWord s - x else if x < -halfPi s then -piWord s - x else x

/-- R162: the sine series at a reduced angle. -/
def sinSeries (tf : Nat) (x : Int) : Int :=
  series tf x (seriesStep tf (fxNeg (fxMul tf x x)) unitFactor sineDivisor)

/-- R162: sine at scale `TF`. -/
def sinTf (tf : Nat) (x : Int) : Int := sinSeries tf (reflect tf (normAngle tf x))

/-- R164: cosine at scale `TF`. -/
def cosTf (tf : Nat) (x : Int) : Int := sinTf tf (wrap64 (halfPi tf - x))

/-- R165: tangent at scale `TF`; a zero divisor raises `DivisionByZero`. -/
def tanTf (tf : Nat) (x : Int) : Result := fxDiv tf (sinTf tf x) (cosTf tf x)

/-- R165: cotangent at scale `TF`. -/
def cotTf (tf : Nat) (x : Int) : Result := fxDiv tf (cosTf tf x) (sinTf tf x)

/-- `NORM a` (R163): at scale `F`, not through `TF`. -/
def execNorm (a : Word) (s : State) : Outcome :=
  conclude (.ok (normAngle s.inst.F (signed a))) s

/-- `SIN a` (R166). -/
def execSin (a : Word) (s : State) : Outcome :=
  conclude (engine s.inst (fun tf x => .ok (sinTf tf x)) a) s

/-- `COS a` (R167). -/
def execCos (a : Word) (s : State) : Outcome :=
  conclude (engine s.inst (fun tf x => .ok (cosTf tf x)) a) s

/-- `TAN a` (R168). -/
def execTan (a : Word) (s : State) : Outcome := conclude (engine s.inst tanTf a) s

/-- `COT a` (R169). -/
def execCot (a : Word) (s : State) : Outcome := conclude (engine s.inst cotTf a) s

end Sys2Proof.Machine
end

