-- ==== Sys2Proof/Machine/Dispatch.lean ====
section
/-! DEFINITION. One arm per instruction, one direct call of its meaning. -/

namespace Sys2Proof.Machine

-- The execution of a decoded command (spec 30_encoding.md R64 names the rule of each).
def exec (i : Instr) (s : State) : Host.Outcome State Fault Refusal :=
  match i with
  | .fromraw a => Sys2Proof.Machine.execFromraw a s
  | .fromint a => Sys2Proof.Machine.execFromint a s
  | .fromflt a => Sys2Proof.Machine.execFromflt a s
  | .from2p a b => Sys2Proof.Machine.execFrom2p a b s
  | .scale => Sys2Proof.Machine.execScale s
  | .const k => Sys2Proof.Machine.execConst k s
  | .add a b => Sys2Proof.Machine.execAdd a b s
  | .sub a b => Sys2Proof.Machine.execSub a b s
  | .neg a => Sys2Proof.Machine.execNeg a s
  | .abs a => Sys2Proof.Machine.execAbs a s
  | .mul a b => Sys2Proof.Machine.execMul a b s
  | .div a b => Sys2Proof.Machine.execDiv a b s
  | .rem a b => Sys2Proof.Machine.execRem a b s
  | .incf newF a => Sys2Proof.Machine.execIncf newF a s
  | .decf newF a => Sys2Proof.Machine.execDecf newF a s
  | .sqrt a => Sys2Proof.Machine.execSqrt a s
  | .fact a => Sys2Proof.Machine.execFact a s
  | .norm a => Sys2Proof.Machine.execNorm a s
  | .sin a => Sys2Proof.Machine.execSin a s
  | .cos a => Sys2Proof.Machine.execCos a s
  | .tan a => Sys2Proof.Machine.execTan a s
  | .cot a => Sys2Proof.Machine.execCot a s
  | .sinh a => Sys2Proof.Machine.execSinh a s
  | .cosh a => Sys2Proof.Machine.execCosh a s
  | .tanh a => Sys2Proof.Machine.execTanh a s
  | .coth a => Sys2Proof.Machine.execCoth a s
  | .ln a => Sys2Proof.Machine.execLn a s
  | .asinh a => Sys2Proof.Machine.execAsinh a s
  | .acosh a => Sys2Proof.Machine.execAcosh a s
  | .atanh a => Sys2Proof.Machine.execAtanh a s
  | .acoth a => Sys2Proof.Machine.execAcoth a s

end Sys2Proof.Machine
end

