-- ==== Sys2Proof/Machine/Run.lean ====
section
/-! DEFINITION. Bringing a command to its execution: decoding and running it, the work of one step on the
command in flight, and the driving of the ports that presents a command (spec 10_state.md R33,
60_exceptions.md R211, R218). -/

namespace Sys2Proof.Machine

/-- Execution of a command: an illegal command word raises `IllegalCommand` before any operand is looked at
(R65, R211, R218). -/
def runCommand (c : Command) (s : State) : Outcome :=
  match decode c with
  | .ok i => exec i s
  | .error _ => conclude (.error .illegalCommand) s

/-- The work on the command in flight: it completes if its latency has run out, else the block stays busy
(R33, R247); with none in flight the block is idle. -/
def work (t : Tick) (s : State) : Outcome :=
  match s.inFlight with
  | none => .next s
  | some c => if t.elapsed then runCommand c s else .next s

/-- The driving of the ports that presents an opcode-table word, its latency running out in the step. -/
def presentWord (nbits w : Nat) : Tick := ⟨false, true, tableCommand nbits w, true⟩

end Sys2Proof.Machine
end

