-- ==== Sys2Proof/Machine/Step.lean ====
section
/-! DEFINITION. One step of the block. A step takes the host's driving of the ports for one stretch of time
(`Tick`): reset, or acceptance of a command, its execution as one atomic step (spec 10_state.md R33: one
step per accepted command), or waiting. With no command the block does nothing (00_scope.md R12). -/

namespace Sys2Proof.Machine

/-- One step (R33, R240). -/
def step (s : State) : Host.Outcome State Fault Refusal :=
  if s.tick.rst then .next s.advance.applyReset
  else work s.tick (s.advance.accept s.tick)

/-- `s` with an opcode-table word presented on the command port in the next step, and the block ready for
it (not busy), so that the next step accepts and runs exactly that command. The block fetches nothing
(R24): presenting is what brings a command to it. -/
def State.withFetchWord (s : State) (nbits w : Nat) : State :=
  { s with inFlight := none, ticks := presentWord nbits w :: s.ticks }

end Sys2Proof.Machine
end

