-- ==== Sys2Proof/Machine/Assembler.lean ====
section
/-! DEFINITION. The host's side of a program (spec 00_scope.md R12, 30_encoding.md R70 to R72): assembler lines,
host variables, pseudo-instructions. None of it is state of the block (10_state.md R20, R24). A line is held
as its parts; Machine/AssemblerText.lean reads it from its text. -/

namespace Sys2Proof.Machine

/-- An operand of an assembler line (R70, R71). -/
inductive Operand where
  /-- a decimal literal, the word's signed value (or, for `b` of `FROM2P`, its unsigned value) -/
  | dec (z : Int)
  /-- a hexadecimal literal, the word's bit pattern -/
  | hex (n : Nat)
  /-- a host variable `%name`; `%y`, while nothing is stored in it, is the current content of `Y` -/
  | var (name : String)
  deriving DecidableEq, Repr

/-- One assembler line, `%dst = MNEMONIC #imm, opa, opb` with the parts its format has (R70, R71). -/
structure Line where
  /-- the host variable that receives `Y` -/
  dst : Option String
  /-- the mnemonic -/
  mnem : Mnemonic
  /-- the immediate, 0 where the format has none -/
  imm : BitVec 5
  /-- operand `opa` -/
  opa : Option Operand
  /-- operand `opb` -/
  opb : Option Operand
  deriving DecidableEq, Repr

/-- The named constants (R93). -/
inductive ConstName where
  | ZERO | ONE | PI | TAU | PHI | GAMMA | SQRT2 | E | LN2
  deriving DecidableEq, Repr

/-- The index of a named constant (R93). -/
def ConstName.index : ConstName → BitVec 5
  | .ZERO => 0 | .ONE => 1 | .PI => 2 | .TAU => 3 | .PHI => 4
  | .GAMMA => 5 | .SQRT2 => 6 | .E => 7 | .LN2 => 8

/-- The compound assignments (R72). -/
inductive Compound where
  | ADDA | SUBA | MULA | DIVA | REMA
  deriving DecidableEq, Repr

/-- The binary command that a compound assignment is an alias of (R72). -/
def Compound.mnem : Compound → Mnemonic
  | .ADDA => .ADD | .SUBA => .SUB | .MULA => .MUL | .DIVA => .DIV | .REMA => .REM

/-- The pseudo-instructions (R72). -/
inductive Pseudo where
  /-- `ADDA %x, opb` and the like -/
  | compound (op : Compound) (x : String) (opb : Operand)
  /-- a constant's name as a command -/
  | named (dst : Option String) (c : ConstName)
  /-- `COPY opa` -/
  | copy (dst : Option String) (opa : Operand)
  deriving DecidableEq, Repr

/-- The one command that a pseudo-instruction expands to (R72). -/
def Pseudo.expand : Pseudo → Line
  | .compound op x opb => ⟨some x, op.mnem, 0, some (.var x), some opb⟩
  | .named dst c => ⟨dst, .CONST, c.index, none, none⟩
  | .copy dst opa => ⟨dst, .FROMRAW, 0, some opa, none⟩

/-- The host's variables, latest first. -/
abbrev HostVars := List (String × Word)

/-- The word that the host presents for an operand; none for a variable that it has not stored, but for `%y`
(R71; log entry 6). -/
def Operand.value (vars : HostVars) (y : Word) : Operand → Option Word
  | .dec z => some (BitVec.ofInt 64 z)
  | .hex n => some (BitVec.ofNat 64 n)
  | .var x => (vars.lookup x).or (if x = "y" then some y else none)

/-- The word presented on an operand port: 0 if the format does not use it (R70). -/
def operandWord (used : Bool) (vars : HostVars) (y : Word) (o : Option Operand) : Option Word :=
  if used then o.bind (Operand.value vars y) else some 0

/-- The triple `(cmd, a, b)` that the assembler emits for a line (R70). -/
def Line.emit (vars : HostVars) (y : Word) (l : Line) : Option Command :=
  match operandWord l.mnem.format.usesA vars y l.opa,
      operandWord l.mnem.format.usesB vars y l.opb with
  | some a, some b => some ⟨commandWord l.mnem.opcode l.imm, a, b⟩
  | _, _ => none

/-- The host stores `Y` in the line's variable if the command completed without error (R71, R72). -/
def HostVars.store (vars : HostVars) (dst : Option String) (s : State) : HostVars :=
  match dst with
  | some x => if s.err = 0 then (x, s.y) :: vars else vars
  | none => vars

/-- The host presents one line's command to a ready block, waits for its completion and stores the result;
`none` if the block is not ready or an operand names no stored word. -/
def Line.run (l : Line) (vars : HostVars) (s : State) : Option (HostVars × State) :=
  match l.emit vars s.y with
  | none => none
  | some c =>
    if s.busy then none
    else
      match step { s with ticks := ⟨false, true, c, true⟩ :: s.ticks } with
      | .next t => some (vars.store l.dst t, t)
      | .fault _ => none
      | .refused _ => none

/-- The host's list of lines, in order (R12, R46). -/
def runLines : List Line → HostVars → State → Option (HostVars × State)
  | [], vars, s => some (vars, s)
  | l :: ls, vars, s =>
    match l.run vars s with
    | some (vars', s') => runLines ls vars' s'
    | none => none

end Sys2Proof.Machine
end

