-- ==== Sys2Proof/Safety.lean ====
section
/-! DEFINITION. The terms that claims about the block are stated in: the invariant, what a completion leaves,
the observable events of a run, and the atomic view of a command (spec 10_state.md R33, 60_exceptions.md
R212, R213). -/

namespace Sys2Proof.Machine

/-- The legal command words (R64, R65): the commands without immediate, `CONST`, `INCF`, `DECF`. -/
def legalWords : List Nat :=
  [0x00, 0x01, 0x02, 0x03, 0x04, 0x08, 0x09, 0x0A, 0x0B, 0x0C, 0x0D, 0x0E, 0x14, 0x15,
    0x18, 0x19, 0x1A, 0x1B, 0x1C, 0x20, 0x21, 0x22, 0x23, 0x28, 0x29, 0x2A, 0x2B, 0x2C] ++
  (List.range 9).map (0x05 + 64 * ·) ++ (List.range 19).map (0x10 + 64 * ·) ++
  (List.range 19).map (0x11 + 64 * ·)

/-- An integer that a signed word can hold (R10). -/
def Fits (z : Int) : Prop := min64 ≤ z ∧ z ≤ max64

/-- `q` is the integer nearest to `n / d`, ties away from zero (R8), said by its distance from the exact
quotient. -/
def IsNearest (q n d : Int) : Prop :=
  2 * |q * d - n| ≤ d ∧ (2 * |q * d - n| = d → |n| < |q| * d)

/-- The invariant of the block: `ERR` holds a code of R210 (93_implementation_defined.md U7), and
`rsp_valid` pulses only with `BUSY = 0` (R33). -/
def BlockInv (s : State) : Prop := s.err.toNat ≤ 8 ∧ (s.rspValid = true → s.busy = false)

/-- A machine that can take a step: it neither faults nor refuses. -/
def Goes (s : State) : Prop := ∃ t, step s = .next t

/-- The state after a completion without error with the word `y` in `Y` (R212); nothing else changes. -/
def State.answered (s : State) (y : Word) : State :=
  { s with y := y, err := 0, inFlight := none, rspValid := true }

/-- The state after a completion in error with `code` in `ERR` (R213); nothing else changes. -/
def State.failedWith (s : State) (code : BitVec 4) : State :=
  { s with err := code, inFlight := none, rspValid := true }

/-- The operand of an engine command at the working precision (R124). -/
def State.widened (s : State) (a : Word) : Int := widen s.inst.F s.inst.TF (signed a)

/-- Widening the operand to the working precision loses nothing (R120). -/
def State.WidensExactly (s : State) (a : Word) : Prop :=
  Fits (a.toInt * 10 ^ (s.inst.TF - s.inst.F))

/-- `v` is the word that an engine command delivers for the word `w` at scale `TF` (R124): the nearest word
at scale `F`. -/
def State.IsNarrowed (s : State) (v : Word) (w : Int) : Prop :=
  IsNearest v.toInt w (10 ^ (s.inst.TF - s.inst.F))

/-- The sum of the first term and `count` more, with no test of the term: the fixed-count alternative of
R156, from index `n`, term `t`, sum `s`. -/
def fixedCountSum (next : Int → Nat → Int) : Nat → Nat → Int → Int → Int
  | 0, _, _, s => s
  | count + 1, n, t, s => fixedCountSum next count (n + 1) (next t n) (wrap64 (s + next t n))

/-- What happens in one step, as the host sees it (R33, R240). -/
inductive Event where
  /-- no command completes -/
  | quiet
  /-- reset -/
  | reset
  /-- the command completes -/
  | done (c : Command)
  deriving DecidableEq, Repr

/-- The events of the host's driving `ts` of the ports, and the command left in flight, for a block with
`busy` in flight before. This is the handshake of R33 and R240 by itself: what a command computes does not
enter. -/
def handshake (busy : Option Command) : List Tick → List Event × Option Command
  | [] => ([], busy)
  | t :: ts =>
    if t.rst then
      let r := handshake none ts
      (.reset :: r.1, r.2)
    else
      match (if busy.isNone && t.cmdValid then some t.command else busy) with
      | none =>
        let r := handshake none ts
        (.quiet :: r.1, r.2)
      | some c =>
        if t.elapsed then
          let r := handshake none ts
          (.done c :: r.1, r.2)
        else
          let r := handshake (some c) ts
          (.quiet :: r.1, r.2)

/-- The response registers. -/
abbrev Response := Word × BitVec 4

/-- The atomic view of R33, `step((Y, ERR), (cmd, a, b)) = (Y', ERR')`: an idle block of instance `p` is
presented one command. -/
def respond (p : Instance) (r : Response) (c : Command) : Response :=
  match step { State.resetOf p [⟨false, true, c, true⟩] with y := r.1, err := r.2 } with
  | .next t => (t.y, t.err)
  | .fault _ => r
  | .refused _ => r

/-- The effect of an event on the response registers. -/
def applyEvent (p : Instance) (r : Response) : Event → Response
  | .quiet => r
  | .reset => (0, 0)
  | .done c => respond p r c

end Sys2Proof.Machine
end

