-- ==== Sys2Proof/Certificates/Slice0/Obligations.lean ====
section
/-! DEFINITION. The statements about the block that are to be proved. Where a statement gives a whole next state,
`s.answered y` or `s.failedWith code`, it says with it what the command leaves unchanged: everything but the
result word (or not even that), `ERR`, `BUSY` and `rsp_valid`. The host's driving of the ports as `ticks`, one
step per tick, the open latency as `elapsed` and `rsp_valid` as a field are the model's own form of R32, R33 and
R247 (log entries 2, 3, 4). -/

open Sys2Proof Sys2Proof.Machine

/-! ### Encoding -/

/-- 30_encoding.md R60 to R64: decoding the encoding of a well-formed instruction gives it back, with every
operand word and every immediate the encoding admits. -/
def Obligations.DecodeEncodeRoundTrip : Prop :=
  ∀ i : Instr, i.wellFormed = true → decode (encode i) = .ok i

/-- R60, R61: what a command decodes to is well-formed, and its encoding is the command again: the same
command word, and the same words on the operand ports that its format reads. -/
def Obligations.EncodeDecodedCommand : Prop :=
  ∀ (c : Command) (i : Instr), decode c = .ok i →
    i.wellFormed = true ∧ (encode i).cmd = c.cmd ∧
    (i.parts.1.format.usesA = true → (encode i).a = c.a) ∧
    (i.parts.1.format.usesB = true → (encode i).b = c.b)

/-- R65: exactly 75 of the 65536 command words are legal, 28 without immediate, 9 of `CONST`, 19 each of
`INCF` and `DECF`; a command is legal whatever its operand words are. -/
def Obligations.LegalCommandWords : Prop :=
  (∀ c : Command, (∃ i, decode c = .ok i) ↔ c.cmd.toNat ∈ legalWords) ∧
  legalWords.length = 75 ∧ legalWords.Nodup

/-- R61: an operand word that the command does not use does not affect what it decodes to. -/
def Obligations.UnusedOperandsIgnored : Prop :=
  ∀ (w : CmdWord) (a a' b b' : Word) (i : Instr), decode ⟨w, a, b⟩ = .ok i →
    (i.parts.1.format.usesB = false → decode ⟨w, a, b'⟩ = .ok i) ∧
    (i.parts.1.format.usesA = false → decode ⟨w, a', b'⟩ = .ok i)

/-- R64, R65: sample words of every family, read from the table of R64 and from the illegal words of R65. -/
def Obligations.SampleWordsDecode : Prop :=
  decode ⟨0x0000, 5, 6⟩ = .ok (.fromraw 5) ∧ decode ⟨0x0003, 5, 6⟩ = .ok (.from2p 5 6) ∧
  decode ⟨0x0205, 5, 6⟩ = .ok (.const 8) ∧ decode ⟨0x000E, 5, 6⟩ = .ok (.rem 5 6) ∧
  decode ⟨0x0490, 5, 6⟩ = .ok (.incf 18 5) ∧ decode ⟨0x00D1, 5, 6⟩ = .ok (.decf 3 5) ∧
  decode ⟨0x0014, 5, 6⟩ = .ok (.sqrt 5) ∧ decode ⟨0x0015, 5, 6⟩ = .ok (.fact 5) ∧
  decode ⟨0x001C, 5, 6⟩ = .ok (.cot 5) ∧ decode ⟨0x0023, 5, 6⟩ = .ok (.coth 5) ∧
  decode ⟨0x002C, 5, 6⟩ = .ok (.acoth 5) ∧ decode ⟨0x0807, 5, 6⟩ = .error .reservedBits ∧
  decode ⟨0x0006, 5, 6⟩ = .error .unassignedOpcode ∧ decode ⟨0x0048, 5, 6⟩ = .error .immediateNotZero ∧
  decode ⟨0x0245, 0, 0⟩ = .error .constantIndex ∧ decode ⟨0x04D0, 0, 0⟩ = .error .targetScale

/-! ### Steps of the block -/

/-- 10_state.md R33: a step in which the latency of a command runs out runs the decoded command, whether it
was in flight before or is accepted in this step; around the meaning the step uses up this step's driving of
the ports, ends the pulse of `rsp_valid` and holds the command as in flight (the model's form of a step: log
entries 2, 3, 4). -/
def Obligations.StepRunsDecodedCommand : Prop :=
  ∀ (s : State) (t : Tick) (ts : List Tick) (c : Command) (i : Instr),
    s.ticks = t :: ts → t.rst = false → t.elapsed = true → decode c = .ok i →
    (s.inFlight = some c ∨ (s.inFlight = none ∧ t.cmdValid = true ∧ t.command = c)) →
    step s = exec i { s with ticks := ts, rspValid := false, inFlight := some c }

/-- The same for a word of the opcode table presented by `withFetchWord` (the model's choice: log entries 2,
5). -/
def Obligations.StepRunsTableWord : Prop :=
  ∀ (s : State) (nbits w : Nat) (i : Instr), decodeTableWord nbits w = some i →
    step (s.withFetchWord nbits w) =
      exec i { s with inFlight := some (tableCommand nbits w), rspValid := false }

/-- 60_exceptions.md R211, R218: an illegal command word completes with code 8 and changes nothing else,
whatever the operand words hold (the model's form of a step: log entries 2, 3). -/
def Obligations.IllegalCommandSetsCode8 : Prop :=
  ∀ (s : State) (t : Tick) (ts : List Tick) (e : Illegal),
    s.ticks = t :: ts → t.rst = false → t.elapsed = true → t.cmdValid = true → s.inFlight = none →
    decode t.command = .error e →
    step s = .next ({ s with ticks := ts }.failedWith 8)

/-- 93_implementation_defined.md: no command, legal or not, hangs the block, and no state makes it stop. -/
def Obligations.EveryStateSteps : Prop := ∀ s : State, Goes s

/-- U7, R33: every step keeps `ERR` among the codes of R210 and `rsp_valid` low while a command is in
flight, from every state that has it (`rsp_valid` as a field: log entry 4). -/
def Obligations.StepKeepsInv : Prop := ∀ s t : State, BlockInv s → step s = .next t → BlockInv t

/-- The invariant of `StepKeepsInv` holds after reset, for every instance and every driving of the ports (log
entries 1, 2). -/
def Obligations.ResetHasInv : Prop :=
  BlockInv State.reset ∧ ∀ (p : Instance) (ts : List Tick), BlockInv (State.resetOf p ts)

/-- R31, R241: reset leaves `Y = 0`, `ERR = 0`, `BUSY = 0`, on every instance; out of reset `cmd_ready` is 1
(that `State.reset` is an example instance with nothing presented is the model's choice: log entries 1, 2). -/
def Obligations.ResetValues : Prop :=
  (∀ (p : Instance) (ts : List Tick), (State.resetOf p ts).y = 0 ∧ (State.resetOf p ts).err = 0 ∧
    (State.resetOf p ts).busy = false ∧ (State.resetOf p ts).inst = p) ∧
  State.reset.y = 0 ∧ State.reset.err = 0 ∧ State.reset.busy = false ∧ State.reset.cmdReady = true

/-- R240: reset at any time, also with a command in flight or presented, leaves the reset state; the command
is abandoned and `rsp_valid` does not pulse (the model's form of a step: log entries 2, 3, 4). -/
def Obligations.ResetAbandonsCommand : Prop :=
  ∀ (s : State) (t : Tick) (ts : List Tick), s.ticks = t :: ts → t.rst = true →
    s.cmdReady = false ∧ step s = .next (State.resetOf s.inst ts)

/-- R33, U13: while a command is in flight, what the host presents on the command port has no effect (log entries 2, 3). -/
def Obligations.BusyIgnoresCommandPort : Prop :=
  ∀ (s : State) (ts : List Tick) (r v v' e : Bool) (c c' : Command), s.busy = true →
    { s with ticks := ⟨r, v, c, e⟩ :: ts }.cmdReady = false ∧
    step { s with ticks := ⟨r, v, c, e⟩ :: ts } = step { s with ticks := ⟨r, v', c', e⟩ :: ts }

/-- R12: with no command in flight and none presented the block keeps its registers (the model takes a
step without a command as waiting: log entries 2, 3). -/
def Obligations.IdleKeepsRegisters : Prop :=
  ∀ s : State, s.inFlight = none → s.tick.rst = false → s.tick.cmdValid = false →
    step s = .next { s with ticks := s.ticks.tail, rspValid := false }

/-- R33, R245: while the latency of a command has not run out it stays in flight, and the registers keep the
previous response (the model's form of the latency: log entries 2, 3). -/
def Obligations.BusyKeepsPreviousResponse : Prop :=
  ∀ (s : State) (t : Tick) (ts : List Tick) (c : Command), s.ticks = t :: ts → t.rst = false →
    t.elapsed = false →
    (s.inFlight = some c ∨ (s.inFlight = none ∧ t.cmdValid = true ∧ t.command = c)) →
    step s = .next { s with ticks := ts, rspValid := false, inFlight := some c }

/-- R247: a command in flight completes once its latency has run out, after any number of steps without
reset, with the response of the atomic view (the model's form of the latency: log entries 2, 3). -/
def Obligations.CommandInFlightCompletes : Prop :=
  ∀ (s : State) (c : Command) (wait : List Tick) (t : Tick) (ts : List Tick),
    s.inFlight = some c → s.ticks = wait ++ t :: ts →
    (∀ u ∈ wait, u.rst = false ∧ u.elapsed = false) → t.rst = false → t.elapsed = true →
    ∃ u, Host.Core.run Sys2Proof.core (wait.length + 1) s = .next u ∧
      (u.y, u.err) = respond s.inst (s.y, s.err) c ∧
      u.inFlight = none ∧ u.rspValid = true ∧ u.ticks = ts ∧ u.inst = s.inst

/-- R33, R46, R240, R247: the block with its handshake, its open latency and its resets refines the atomic
view: after any run, `Y` and `ERR` are what the events of the handshake, taken in order, make of them, and
the command in flight is the one the handshake leaves (the model's form of the handshake: log entries 2, 3, 4). -/
def Obligations.HandshakeRefinesAtomicView : Prop :=
  ∀ (s : State) (ts rest : List Tick), s.ticks = ts ++ rest →
    ∃ u, Host.Core.run Sys2Proof.core ts.length s = .next u ∧
      (u.y, u.err) = (handshake s.inFlight ts).1.foldl (applyEvent s.inst) (s.y, s.err) ∧
      u.inFlight = (handshake s.inFlight ts).2 ∧ u.ticks = rest ∧ u.inst = s.inst

/-- R30: the outcome of a command depends only on the command and the instance parameters. -/
def Obligations.OutcomeDependsOnCommandOnly : Prop :=
  ∃ response : Instance → Instr → Except (BitVec 4) Word, ∀ (i : Instr) (s : State),
    exec i s = match response s.inst i with
      | .ok w => .next (s.answered w)
      | .error code => .next (s.failedWith code)

/-- R212, R213: what every command changes and leaves unchanged; a command that ends in an error leaves `Y`
too. -/
def Obligations.ExecFrame : Prop :=
  ∀ (i : Instr) (s : State), ∃ t, exec i s = .next t ∧ t.inst = s.inst ∧ t.ticks = s.ticks ∧
    t.inFlight = none ∧ t.rspValid = true ∧ (t.err ≠ 0 → t.y = s.y) ∧ t.err.toNat ≤ 8

/-- R210: the codes that each command can report, for the instructions that some command word encodes. -/
def Obligations.ErrorCodesPerCommand : Prop :=
  ∀ (i : Instr) (s t : State), i.wellFormed = true → exec i s = .next t →
    t.err.toNat ∈ (match i.parts.1 with
      | .FROMFLT => [0, 1]
      | .DIV | .REM => [0, 2]
      | .INCF | .DECF => [0, 7]
      | .SQRT => [0, 3]
      | .FACT => [0, 4, 5]
      | .TAN | .COT | .TANH | .COTH => [0, 2]
      | .LN => [0, 6]
      | .ASINH | .ACOSH => [0, 3, 6]
      | .ATANH | .ACOTH => [0, 2, 6]
      | .FROMRAW | .FROMINT | .FROM2P | .SCALE | .CONST | .ADD | .SUB | .NEG | .ABS | .MUL
      | .NORM | .SIN | .COS | .SINH | .COSH => [0])

/-! ### Integers -/

/-- 00_scope.md R5: `wrap64 z` is the one integer of the signed range congruent to `z` modulo `2^64`. -/
def Obligations.WrapIsTheResidue : Prop :=
  ∀ z w : Int, w = wrap64 z ↔ (min64 ≤ w ∧ w ≤ max64 ∧ (w - z) % 2 ^ 64 = 0)

/-- R6: `sat64` clamps to the signed range. -/
def Obligations.SatClamps : Prop :=
  ∀ z : Int, sat64 z = max min64 (min max64 z)

/-- R7: the truncating quotient and its remainder. -/
def Obligations.TruncatingDivision : Prop :=
  (∀ n d : Int, d ≠ 0 → tdiv n d = n.sign * d.sign * ((n.natAbs / d.natAbs : Nat) : Int) ∧
    trem n d = n - d * tdiv n d ∧ |trem n d| < |d| ∧ (trem n d = 0 ∨ (trem n d).sign = n.sign)) ∧
  tdiv 7 2 = 3 ∧ tdiv (-7) 2 = -3 ∧ tdiv 7 (-2) = -3 ∧ tdiv (-7) (-2) = 3 ∧
  trem (-7) 2 = -1 ∧ trem 7 (-2) = 1

/-- R8: `rha n d` is `n / d` rounded to the nearest integer, ties away from zero, in the rule's closed form
and, for an even divisor, by adding half of it before a truncating division; with the rule's examples. -/
def Obligations.RoundHalfAway : Prop :=
  (∀ n d : Int, 0 < d → IsNearest (rha n d) n d ∧
    rha n d = n.sign * ((2 * |n| + d) / (2 * d)) ∧
    (d % 2 = 0 → rha n d = tdiv (n + n.sign * (d / 2)) d)) ∧
  rha 5 10 = 1 ∧ rha (-5) 10 = -1 ∧ rha 4 10 = 0 ∧ rha (-15) 10 = -2 ∧ rha 14 10 = 1 ∧ rha 7 1 = 7 ∧
  rha 1 3 = 0 ∧ rha 2 3 = 1 ∧ rha (-3) 2 = -2

/-! ### Construction -/

/-- 40_construction.md R80: every word is wrapped unchanged. -/
def Obligations.FromrawIsIdentity : Prop :=
  ∀ (a b : Word) (s : State), decode ⟨0x0000, a, b⟩ = .ok (.fromraw a) ∧
    exec (.fromraw a) s = .next (s.answered a)

/-- R81: the integer times `10^F`, saturated. -/
def Obligations.FromintSaturates : Prop :=
  ∀ (a b : Word) (s : State), decode ⟨0x0001, a, b⟩ = .ok (.fromint a) ∧
    ∃ y, exec (.fromint a) s = .next (s.answered y) ∧
      y.toInt = max min64 (min max64 (a.toInt * 10 ^ s.inst.F))

/-- R82: a NaN raises code 1; an infinity saturates; a finite value, the exact rational
`m * 2^e2` scaled by `10^F`, is rounded once to the nearest integer, ties away from zero, and saturated. The
fields are read off the word by division. -/
def Obligations.FromfltRoundsOnce : Prop :=
  ∀ (a : Word) (s : State) (negative : Bool) (ex fr : Nat),
    negative = decide (2 ^ 63 ≤ a.toNat) → ex = a.toNat / 2 ^ 52 % 2048 → fr = a.toNat % 2 ^ 52 →
    (ex = 2047 → fr ≠ 0 → exec (.fromflt a) s = .next (s.failedWith 1)) ∧
    (ex = 2047 → fr = 0 → exec (.fromflt a) s =
      .next (s.answered (if negative then 0x8000000000000000 else 0x7FFFFFFFFFFFFFFF))) ∧
    (ex ≠ 2047 → ∃ (v : ℚ) (q : ℤ) (y : Word),
      v = (if ex = 0 then (fr : ℚ) * 2 ^ (-1074 : ℤ) else (2 ^ 52 + (fr : ℚ)) * 2 ^ ((ex : ℤ) - 1075))
        * 10 ^ s.inst.F ∧
      |(q : ℚ) - v| ≤ 1 / 2 ∧ (|(q : ℚ) - v| = 1 / 2 → v < q) ∧
      exec (.fromflt a) s = .next (s.answered y) ∧
      y.toInt = max min64 (min max64 (if negative then -q else q)))

/-- R83: the integer part and the numerator over `10^19`, rounded half up at scale `F`, then saturated; `b`
is unsigned and any word is taken. -/
def Obligations.From2pAddsFraction : Prop :=
  ∀ (a b : Word) (s : State), decode ⟨0x0003, a, b⟩ = .ok (.from2p a b) ∧
    ∃ y, exec (.from2p a b) s = .next (s.answered y) ∧
      y.toInt = max min64 (min max64 (a.toInt * 10 ^ s.inst.F +
        (((b.toNat + 10 ^ (19 - s.inst.F) / 2) / 10 ^ (19 - s.inst.F) : Nat) : Int)))

/-- R84: the scale constant, which is also the constant one at scale `F`. -/
def Obligations.ScaleReturnsPowerOfTen : Prop :=
  ∀ (a b : Word) (s : State), decode ⟨0x0004, a, b⟩ = .ok .scale ∧
    ∃ y, exec .scale s = .next (s.answered y) ∧ y.toInt = 10 ^ s.inst.F ∧ exec (.const 1) s = exec .scale s

/-- 41_constant_rom.md R92, R94: the constant of index `k` is its ROM entry rounded to scale `F`, nothing
saturates; the entries are those of R91. -/
def Obligations.ConstRoundsRomEntry : Prop :=
  (∀ s : State, exec (.const 0) s = .next (s.answered 0)) ∧
  ∀ (k : BitVec 5) (ip fn : Nat) (s : State),
    (k, ip, fn) ∈ [((2 : BitVec 5), 3, 1415926535897932384), (3, 6, 2831853071795864769),
      (4, 1, 6180339887498948482), (5, 0, 5772156649015328606), (6, 1, 4142135623730950488),
      (7, 2, 7182818284590452353), (8, 0, 6931471805599453094)] →
    ∃ y, exec (.const k) s = .next (s.answered y) ∧
      y.toInt = ip * 10 ^ s.inst.F + ((fn + 10 ^ (19 - s.inst.F) / 2) / 10 ^ (19 - s.inst.F) : Nat)

/-- R95: PI, TAU, PHI, GAMMA, SQRT2, E, LN2 and HALFPI at every scale, and the two things not to assume of
them. -/
def Obligations.ConstantTable : Prop :=
  ((List.range 19).map fun s =>
    [constWord s 2, constWord s 3, constWord s 4, constWord s 5, constWord s 6, constWord s 7,
      constWord s 8, halfPi s]) =
  [[3, 6, 2, 1, 1, 3, 1, 1],
    [31, 63, 16, 6, 14, 27, 7, 15],
    [314, 628, 162, 58, 141, 272, 69, 157],
    [3142, 6283, 1618, 577, 1414, 2718, 693, 1571],
    [31416, 62832, 16180, 5772, 14142, 27183, 6931, 15708],
    [314159, 628319, 161803, 57722, 141421, 271828, 69315, 157079],
    [3141593, 6283185, 1618034, 577216, 1414214, 2718282, 693147, 1570796],
    [31415927, 62831853, 16180340, 5772157, 14142136, 27182818, 6931472, 15707963],
    [314159265, 628318531, 161803399, 57721566, 141421356, 271828183, 69314718, 157079632],
    [3141592654, 6283185307, 1618033989, 577215665, 1414213562, 2718281828, 693147181, 1570796327],
    [31415926536, 62831853072, 16180339887, 5772156649, 14142135624, 27182818285, 6931471806, 15707963268],
    [314159265359, 628318530718, 161803398875, 57721566490, 141421356237, 271828182846, 69314718056, 157079632679],
    [3141592653590, 6283185307180, 1618033988750, 577215664902, 1414213562373, 2718281828459, 693147180560, 1570796326795],
    [31415926535898, 62831853071796, 16180339887499, 5772156649015, 14142135623731, 27182818284590, 6931471805599, 15707963267949],
    [314159265358979, 628318530717959, 161803398874989, 57721566490153, 141421356237310, 271828182845905, 69314718055995, 157079632679489],
    [3141592653589793, 6283185307179586, 1618033988749895, 577215664901533, 1414213562373095, 2718281828459045, 693147180559945, 1570796326794896],
    [31415926535897932, 62831853071795865, 16180339887498948, 5772156649015329, 14142135623730950, 27182818284590452, 6931471805599453, 15707963267948966],
    [314159265358979324, 628318530717958648, 161803398874989485, 57721566490153286, 141421356237309505, 271828182845904524, 69314718055994531, 157079632679489662],
    [3141592653589793238, 6283185307179586477, 1618033988749894848, 577215664901532861, 1414213562373095049, 2718281828459045235, 693147180559945309, 1570796326794896619]] ∧
  ((List.range 19).filter fun s => constWord s 3 ≠ 2 * constWord s 2) = [1, 3, 5, 6, 7, 8, 9, 14, 16, 18] ∧
  ((List.range 19).filter fun s => 2 * halfPi s ≠ constWord s 2) = [0, 1, 5, 6, 7, 8, 11, 14, 15]

/-! ### Arithmetic -/

/-- 42_arithmetic.md R100 to R103, R107 to R110: sum, difference, negation and absolute value are those of
64-bit two's complement, wrapping silently; `MIN64` is its own negative and absolute value. -/
def Obligations.AddSubNegAbsWrap : Prop :=
  ∀ (a b : Word) (s : State),
    exec (.add a b) s = .next (s.answered (a + b)) ∧
    exec (.sub a b) s = .next (s.answered (a - b)) ∧
    exec (.neg a) s = .next (s.answered (-a)) ∧
    exec (.abs a) s = .next (s.answered (if a.msb then -a else a))

/-- R104, R111: the product is the wrapped 64-bit product with half of the scale added away from zero,
wrapping, and divided by the scale, truncating. -/
def Obligations.MulIsWrappedProduct : Prop :=
  ∀ (a b p h m : Word) (s : State), p = a * b → h = BitVec.ofNat 64 (10 ^ s.inst.F / 2) →
    m = (if p.msb then p - h else p + h) →
    exec (.mul a b) s = .next (s.answered (m.sdiv (BitVec.ofNat 64 (10 ^ s.inst.F))))

/-- R104 (2): when the true product and half of the scale fit, the result is the exact product of the two
values, rounded to the nearest raw unit, ties away from zero. -/
def Obligations.MulIsExactInRange : Prop :=
  ∀ (a b : Word) (s : State), |a.toInt * b.toInt| + 10 ^ s.inst.F / 2 ≤ max64 →
    ∃ y, exec (.mul a b) s = .next (s.answered y) ∧
      IsNearest y.toInt (a.toInt * b.toInt) (10 ^ s.inst.F)

/-- R105, R112: a zero divisor raises code 2; otherwise the quotient is that of the wrapped scaled dividend
moved away from zero by half of the divisor, wrapping. -/
def Obligations.DivIsWrappedQuotient : Prop :=
  ∀ (a b n h m : Word) (s : State), n = a * BitVec.ofNat 64 (10 ^ s.inst.F) → h = b.sdiv 2 →
    m = (if n.msb = b.msb then n + h else n - h) →
    (b = 0 → exec (.div a b) s = .next (s.failedWith 2)) ∧
    (b ≠ 0 → exec (.div a b) s = .next (s.answered (m.sdiv b)))

/-- R105: when nothing wraps, the result is the exact quotient of the two values, rounded to the nearest raw
unit, ties away from zero. -/
def Obligations.DivIsExactInRange : Prop :=
  ∀ (a b : Word) (s : State), b ≠ 0 → |a.toInt| * 10 ^ s.inst.F + |b.toInt| / 2 ≤ max64 →
    ∃ y, exec (.div a b) s = .next (s.answered y) ∧
      IsNearest (y.toInt * b.toInt.sign) (a.toInt * 10 ^ s.inst.F) |b.toInt|

/-- R106, R113: a zero divisor raises code 2; otherwise the truncated remainder, with no overflow. -/
def Obligations.RemIsTruncated : Prop :=
  ∀ (a b : Word) (s : State),
    (b = 0 → exec (.rem a b) s = .next (s.failedWith 2)) ∧
    (b ≠ 0 → ∃ y, exec (.rem a b) s = .next (s.answered y) ∧ y = a.srem b ∧
      y.toInt = a.toInt.tmod b.toInt)

/-! ### Precision conversion -/

/-- 43_precision_conversion.md R122: widening to a smaller scale raises code 7; otherwise the value times the
power of ten, saturated. -/
def Obligations.IncfWidens : Prop :=
  ∀ (newF : BitVec 5) (a : Word) (s : State), newF.toNat ≤ 18 →
    (newF.toNat < s.inst.F → exec (.incf newF a) s = .next (s.failedWith 7)) ∧
    (s.inst.F ≤ newF.toNat → ∃ y, exec (.incf newF a) s = .next (s.answered y) ∧
      y.toInt = max min64 (min max64 (a.toInt * 10 ^ (newF.toNat - s.inst.F))))

/-- R123: narrowing to a larger scale raises code 7; otherwise the nearest word at the smaller scale, ties
away from zero, with no wrap. -/
def Obligations.DecfNarrows : Prop :=
  ∀ (newF : BitVec 5) (a : Word) (s : State), newF.toNat ≤ 18 →
    (s.inst.F < newF.toNat → exec (.decf newF a) s = .next (s.failedWith 7)) ∧
    (newF.toNat ≤ s.inst.F → ∃ y, exec (.decf newF a) s = .next (s.answered y) ∧
      IsNearest y.toInt a.toInt (10 ^ (s.inst.F - newF.toNat)))

/-! ### Square root and factorial -/

/-- 44_sqrt.md R130 to R133: a negative operand raises code 3; otherwise the result is the word nearest to
the square root of the value, for every non-negative word at every scale. -/
def Obligations.SqrtIsNearest : Prop :=
  ∀ (a : Word) (s : State),
    (a.toInt < 0 → exec (.sqrt a) s = .next (s.failedWith 3)) ∧
    (0 ≤ a.toInt → ∃ y, exec (.sqrt a) s = .next (s.answered y) ∧ 0 ≤ y.toInt ∧
      a.toInt * 10 ^ s.inst.F ≤ y.toInt * y.toInt + y.toInt ∧
      (y = 0 ∨ y.toInt * y.toInt - y.toInt < a.toInt * 10 ^ s.inst.F))

/-- R131, R134: within the bound on its passes the Newton-Raphson loop delivers the floor of the square
root. -/
def Obligations.NewtonFindsFloorRoot : Prop :=
  ∀ n : Nat, 1 ≤ n → n < 2 ^ 123 → isqrt n * isqrt n ≤ n ∧ n < (isqrt n + 1) * (isqrt n + 1)

/-- 45_factorial.md R142, R143, R144: code 4 for a negative or non-integral operand, then code 5 above 20,
otherwise the factorial times the scale, saturated. -/
def Obligations.FactIsFactorial : Prop :=
  ∀ (a : Word) (s : State),
    ((a.toInt < 0 ∨ ¬ (10 : Int) ^ s.inst.F ∣ a.toInt) → exec (.fact a) s = .next (s.failedWith 4)) ∧
    (0 ≤ a.toInt → ∀ k : Nat, a.toInt = k * 10 ^ s.inst.F →
      (20 < k → exec (.fact a) s = .next (s.failedWith 5)) ∧
      (k ≤ 20 → ∃ y, exec (.fact a) s = .next (s.answered y) ∧
        y.toInt = min max64 (k.factorial * 10 ^ s.inst.F)))

/-! ### Series -/

/-- 46_series_accumulator.md R156: with a threshold of one raw unit the fixed-count loop gives the same
sum. -/
def Obligations.FixedCountGivesSameSum : Prop :=
  ∀ (tf : Nat) (t0 m : Int) (p q : Nat → Int), tf ≤ 18 → Fits t0 →
    series tf t0 (seriesStep tf m p q) = fixedCountSum (seriesStep tf m p q) (maxIter tf) 1 t0 t0

/-- R151, R153, R154: each of the four series of the engines is the wrapped sum of `MAXITER + 1` terms, each
term made from the one before as the table of R154 says; `MAXITER` is 16 for `TF` 0 to 6, 24 for 7 to 12, 40 for
13 to 18. -/
def Obligations.SeriesAreTermSums : Prop :=
  (∀ tf ≤ 18, (tf ≤ 6 → maxIter tf = 16) ∧ (7 ≤ tf → tf ≤ 12 → maxIter tf = 24) ∧
    (13 ≤ tf → maxIter tf = 40)) ∧
  ∀ (tf : Nat) (x : Int), tf ≤ 18 → Fits x →
    (∃ t : Nat → Int, t 0 = x ∧
      (∀ n, t (n + 1) = rha (fxMul tf (t n) (fxNeg (fxMul tf x x))) ((2 * n + 2) * (2 * n + 3))) ∧
      sinSeries tf x = wrap64 (∑ i ∈ Finset.range (maxIter tf + 1), t i)) ∧
    (∃ t : Nat → Int, t 0 = x ∧
      (∀ n, t (n + 1) = rha (fxMul tf (t n) (fxMul tf x x)) ((2 * n + 2) * (2 * n + 3))) ∧
      sinhTf tf x = wrap64 (∑ i ∈ Finset.range (maxIter tf + 1), t i)) ∧
    (∃ t : Nat → Int, t 0 = 10 ^ tf ∧
      (∀ n, t (n + 1) = rha (fxMul tf (t n) (fxMul tf x x)) ((2 * n + 2) * (2 * n + 1))) ∧
      coshTf tf x = wrap64 (∑ i ∈ Finset.range (maxIter tf + 1), t i)) ∧
    (∀ k : Int, ∃ t : Nat → Int, t 0 = x ∧
      (∀ n, t (n + 1) = rha (fxMul tf (t n) (fxMul tf x x) * (2 * n + 1)) (2 * n + 3)) ∧
      lnFromQuotient tf k x = wrap64
        (2 * wrap64 (∑ i ∈ Finset.range (maxIter tf + 1), t i) + k * constWord tf 8))

/-! ### Trigonometric commands -/

/-- 47_trig.md R161, R163: the normalised angle lies in `[-PI, PI]`, differs from the operand by a whole
number of turns of the word `TAU`, is the operand itself if that lies in the interval; normalising again
changes nothing. -/
def Obligations.NormReducesAngle : Prop :=
  ∀ (a : Word) (s : State), ∃ y, exec (.norm a) s = .next (s.answered y) ∧
    |y.toInt| ≤ constWord s.inst.F 2 ∧
    constWord s.inst.F 3 ∣ a.toInt - y.toInt ∧
    (|a.toInt| ≤ constWord s.inst.F 2 → y = a) ∧
    exec (.norm y) s = .next (s.answered y)

/-- R162, R164, R166, R167, R124: sine and cosine always complete, with the word of the working scale narrowed
to `F`, for the operand widened to the working scale, saturating. The word is the sine series at the reduced
angle `x2`: the operand less whole turns, `x1` in `[-PI, PI]`, and where that exceeds `HALFPI` in magnitude
reflected, so that `|x2| <= HALFPI`; a cosine is the sine of `HALFPI - x`. -/
def Obligations.SinCosComplete : Prop :=
  ∀ (a : Word) (s : State) (tf : Nat), tf = s.inst.TF →
    s.widened a = max min64 (min max64 (a.toInt * 10 ^ (tf - s.inst.F))) ∧
    (∃ y, exec (.sin a) s = .next (s.answered y) ∧ s.IsNarrowed y (sinTf tf (s.widened a))) ∧
    (∃ y, exec (.cos a) s = .next (s.answered y) ∧ s.IsNarrowed y (cosTf tf (s.widened a))) ∧
    (∀ x : Int, cosTf tf x = sinTf tf (wrap64 (halfPi tf - x))) ∧
    ∀ x : Int, ∃ x1 x2 : Int,
      |x1| ≤ constWord tf 2 ∧ constWord tf 3 ∣ x - x1 ∧ (|x| ≤ constWord tf 2 → x1 = x) ∧
      (|x1| ≤ halfPi tf → x2 = x1) ∧ (halfPi tf < x1 → x2 = constWord tf 2 - x1) ∧
      (x1 < -halfPi tf → x2 = -constWord tf 2 - x1) ∧
      |x2| ≤ halfPi tf ∧ sinTf tf x = sinSeries tf x2

/-- R168, R169: tangent and cotangent raise code 2 if and only if the divisor word is 0, and otherwise
complete with the rounded quotient of the two words narrowed to `F`. -/
def Obligations.TanCotDivide : Prop :=
  ∀ (a : Word) (s : State) (tf : Nat) (x : Int), tf = s.inst.TF → x = s.widened a →
    (cosTf tf x = 0 → exec (.tan a) s = .next (s.failedWith 2)) ∧
    (cosTf tf x ≠ 0 → ∃ q y, fxDiv tf (sinTf tf x) (cosTf tf x) = .ok q ∧
      exec (.tan a) s = .next (s.answered y) ∧ s.IsNarrowed y q) ∧
    (sinTf tf x = 0 → exec (.cot a) s = .next (s.failedWith 2)) ∧
    (sinTf tf x ≠ 0 → ∃ q y, fxDiv tf (cosTf tf x) (sinTf tf x) = .ok q ∧
      exec (.cot a) s = .next (s.answered y) ∧ s.IsNarrowed y q)

/-- R166: sine is odd for every operand whose widening does not saturate; for the working precisions at
which no product of a sine wraps (R157, R248: `TF <= 9`). -/
def Obligations.SinIsOdd : Prop :=
  ∀ (a : Word) (s t u : State), s.inst.TF ≤ 9 → a.toInt ≠ min64 → s.WidensExactly a →
    exec (.sin a) s = .next t → exec (.sin (-a)) s = .next u → u.y = -t.y

/-! ### Hyperbolic commands -/

/-- 48_hyperbolic.md R182, R183, R124: hyperbolic sine and cosine always complete, with the word of the
working scale narrowed to `F`. -/
def Obligations.SinhCoshComplete : Prop :=
  ∀ (a : Word) (s : State),
    (∃ y, exec (.sinh a) s = .next (s.answered y) ∧
      s.IsNarrowed y (sinhTf s.inst.TF (s.widened a))) ∧
    (∃ y, exec (.cosh a) s = .next (s.answered y) ∧
      s.IsNarrowed y (coshTf s.inst.TF (s.widened a)))

/-- R184, R185: hyperbolic tangent and cotangent raise code 2 if and only if the divisor word is 0, and
otherwise complete with the rounded quotient narrowed to `F`. -/
def Obligations.TanhCothDivide : Prop :=
  ∀ (a : Word) (s : State) (tf : Nat) (x : Int), tf = s.inst.TF → x = s.widened a →
    (coshTf tf x = 0 → exec (.tanh a) s = .next (s.failedWith 2)) ∧
    (coshTf tf x ≠ 0 → ∃ q y, fxDiv tf (sinhTf tf x) (coshTf tf x) = .ok q ∧
      exec (.tanh a) s = .next (s.answered y) ∧ s.IsNarrowed y q) ∧
    (sinhTf tf x = 0 → exec (.coth a) s = .next (s.failedWith 2)) ∧
    (sinhTf tf x ≠ 0 → ∃ q y, fxDiv tf (coshTf tf x) (sinhTf tf x) = .ok q ∧
      exec (.coth a) s = .next (s.answered y) ∧ s.IsNarrowed y q)

/-- R183: hyperbolic cosine is even by construction, whatever wraps in it, for every operand whose widening
does not saturate. -/
def Obligations.CoshIsEven : Prop :=
  ∀ (a : Word) (s : State), a.toInt ≠ min64 → s.WidensExactly a →
    exec (.cosh (-a)) s = exec (.cosh a) s

/-- R184, R185, R169: at the operand 0 hyperbolic sine, tangent and sine give 0, hyperbolic cosine gives the
constant one, and both cotangents raise code 2, on every instance. -/
def Obligations.EngineAtZero : Prop :=
  ∀ s : State,
    exec (.sin 0) s = .next (s.answered 0) ∧ exec (.cot 0) s = .next (s.failedWith 2) ∧
    exec (.sinh 0) s = .next (s.answered 0) ∧ exec (.cosh 0) s = exec (.const 1) s ∧
    exec (.tanh 0) s = .next (s.answered 0) ∧ exec (.coth 0) s = .next (s.failedWith 2)

/-! ### Logarithm and inverse hyperbolic commands -/

/-- 49_logarithm.md R190: the range reduction ends in `[HALF, TWO]`. With `k >= 0` the reduced word is the
operand halved `k` times, truncating; with `k <= 0` it is the operand doubled `-k` times; at most one of the two
loops runs. Each halving is made of a word above `TWO`, each doubling of a word below `HALF`; there are at most
62 halvings and 59 doublings, and no word on the way leaves the signed range. -/
def Obligations.LnRangeReduction : Prop :=
  ∀ (tf : Nat) (x r k : Int), tf ≤ 18 → 0 < x → x ≤ max64 → reduceLn tf x = (r, k) →
    10 ^ tf / 2 ≤ r ∧ r ≤ 2 * 10 ^ tf ∧ 0 < r ∧ -59 ≤ k ∧ k ≤ 62 ∧
    (0 ≤ k → r = x / 2 ^ k.toNat) ∧ (k ≤ 0 → r = x * 2 ^ (-k).toNat) ∧
    (∀ j : Nat, (j : Int) < k → 2 * 10 ^ tf < x / 2 ^ j) ∧
    (∀ j : Nat, (j : Int) < -k → x * 2 ^ j < 10 ^ tf / 2) ∧
    ∀ j : Nat, ((j : Int) ≤ k → Fits (x / 2 ^ j)) ∧ ((j : Int) ≤ -k → Fits (x * 2 ^ j))

/-- R191, R192: code 6 if and only if the operand is not positive; otherwise the logarithm at the working scale
is a word and is narrowed to `F`; the logarithm of one is zero on every instance. The logarithm of any positive
word `x` at the working scale is the value that the series and `k` times the word of `ln 2` give for the quotient
of `r - ONE` by `r + ONE`, with `r` and `k` the reduced word and the count of R190. -/
def Obligations.LnCompletes : Prop :=
  ∀ (a : Word) (s : State) (tf : Nat), tf = s.inst.TF →
    (a.toInt ≤ 0 → exec (.ln a) s = .next (s.failedWith 6)) ∧
    (0 < a.toInt → ∃ l y, lnTf tf (s.widened a) = .ok l ∧ Fits l ∧
      exec (.ln a) s = .next (s.answered y) ∧ s.IsNarrowed y l) ∧
    (a.toInt = 10 ^ s.inst.F → exec (.ln a) s = .next (s.answered 0)) ∧
    ∀ x r k : Int, 0 < x → x ≤ max64 → reduceLn tf x = (r, k) →
      ∃ q, fxDiv tf (r - 10 ^ tf) (r + 10 ^ tf) = .ok q ∧ Fits q ∧ lnTf tf x = .ok (lnFromQuotient tf k q)

/-- R194, R195, R193: the inverse hyperbolic sine and cosine end as the first failing primitive says: code 3
if the radicand is negative, code 6 if the sum is not positive, otherwise the logarithm of the sum, narrowed
to `F`. -/
def Obligations.AsinhAcoshOutcomes : Prop :=
  ∀ (a : Word) (s : State) (tf : Nat) (x w v : Int), tf = s.inst.TF → x = s.widened a →
    w = fxAdd (fxMul tf x x) (10 ^ tf) → v = fxSub (fxMul tf x x) (10 ^ tf) →
    (w < 0 → exec (.asinh a) s = .next (s.failedWith 3)) ∧
    (0 ≤ w → ∃ r, fxSqrt tf w = .ok r ∧
      (fxAdd x r ≤ 0 → exec (.asinh a) s = .next (s.failedWith 6)) ∧
      (0 < fxAdd x r → ∃ l y, lnTf tf (fxAdd x r) = .ok l ∧
        exec (.asinh a) s = .next (s.answered y) ∧ s.IsNarrowed y l)) ∧
    (v < 0 → exec (.acosh a) s = .next (s.failedWith 3)) ∧
    (0 ≤ v → ∃ r, fxSqrt tf v = .ok r ∧
      (fxAdd x r ≤ 0 → exec (.acosh a) s = .next (s.failedWith 6)) ∧
      (0 < fxAdd x r → ∃ l y, lnTf tf (fxAdd x r) = .ok l ∧
        exec (.acosh a) s = .next (s.answered y) ∧ s.IsNarrowed y l))

/-- R196, R197, R193: the inverse hyperbolic tangent and cotangent end as the first failing primitive says:
code 2 if the divisor is 0, code 6 if the quotient is not positive, otherwise half of the logarithm of the
quotient, rounded half away, narrowed to `F`. -/
def Obligations.AtanhAcothOutcomes : Prop :=
  ∀ (a : Word) (s : State) (tf : Nat) (x one : Int), tf = s.inst.TF → x = s.widened a → one = 10 ^ tf →
    (fxSub one x = 0 → exec (.atanh a) s = .next (s.failedWith 2)) ∧
    (fxSub one x ≠ 0 → ∃ q, fxDiv tf (fxAdd one x) (fxSub one x) = .ok q ∧
      (q ≤ 0 → exec (.atanh a) s = .next (s.failedWith 6)) ∧
      (0 < q → ∃ l h y, lnTf tf q = .ok l ∧ IsNearest h l 2 ∧
        exec (.atanh a) s = .next (s.answered y) ∧ s.IsNarrowed y h)) ∧
    (fxSub x one = 0 → exec (.acoth a) s = .next (s.failedWith 2)) ∧
    (fxSub x one ≠ 0 → ∃ q, fxDiv tf (fxAdd x one) (fxSub x one) = .ok q ∧
      (q ≤ 0 → exec (.acoth a) s = .next (s.failedWith 6)) ∧
      (0 < q → ∃ l h y, lnTf tf q = .ok l ∧ IsNearest h l 2 ∧
        exec (.acoth a) s = .next (s.answered y) ∧ s.IsNarrowed y h))

/-- R195, R196: where the operand alone decides, at the working precisions whose products do not wrap
(R248: `TF <= 9`): `ACOSH` below one raises code 3; `ATANH` and `ACOTH` of one raise code 2; `ATANH` inside
`(-1, 1)` completes without error. -/
def Obligations.InverseDomainEdges : Prop :=
  ∀ (a : Word) (s : State), s.inst.TF ≤ 9 →
    (|a.toInt| < 10 ^ s.inst.F → exec (.acosh a) s = .next (s.failedWith 3)) ∧
    (a.toInt = 10 ^ s.inst.F → exec (.atanh a) s = .next (s.failedWith 2) ∧
      exec (.acoth a) s = .next (s.failedWith 2)) ∧
    (|a.toInt| < 10 ^ s.inst.F → ∃ y, exec (.atanh a) s = .next (s.answered y))

/-! ### The instance, and the host's side -/

/-- 00_scope.md R4, 70_reset_and_hazards.md R243: an instance with `F > 18`, `TF > 18` or `TF < F` is refused,
every other pair is an instance, and no step changes it. -/
def Obligations.IllegalInstanceRefused : Prop :=
  (∀ F TF : Nat, Instance.build F TF = none ↔ (18 < F ∨ 18 < TF ∨ TF < F)) ∧
  (∀ (F TF : Nat) (p : Instance), Instance.build F TF = some p → p.F = F ∧ p.TF = TF) ∧
  ∀ s t : State, step s = .next t → t.inst = s.inst

/-- 30_encoding.md R72, R71: on a ready block, also one that has just completed a command, `ADDA`, `SUBA`,
`MULA`, `DIVA` and `REMA` are the commands `ADD`, `SUB`, `MUL`, `DIV` and `REM` with the variable's word as `a`;
the variable takes the result, or keeps its value if the command ends in an error (host side: log entry 6). -/
def Obligations.CompoundAssignmentAlias : Prop :=
  ∀ (op : Compound) (x : String) (o : Machine.Operand) (vars : HostVars) (s : State) (w v : Word)
    (c : CmdWord) (i : Instr),
    (op, c, i) ∈ [(Compound.ADDA, (0x0008 : CmdWord), Instr.add w v), (.SUBA, 0x0009, .sub w v),
      (.MULA, 0x000C, .mul w v), (.DIVA, 0x000D, .div w v), (.REMA, 0x000E, .rem w v)] →
    s.inFlight = none → vars.lookup x = some w → o.value vars s.y = some v →
    ∃ t, exec i { s with inFlight := some ⟨c, w, v⟩, rspValid := false } = .next t ∧
      (Pseudo.compound op x o).expand.run vars s =
        some (if t.err = 0 then (x, t.y) :: vars else vars, t)
end

