-- ==== Sys2Proof/Laws/Decode.lean ====
section
/-! SUPPORT. The fields of a command word, the opcode map and its inverse, each said once. -/

namespace Sys2Proof

/-- A bit of a command word, by the field it lies in. -/
theorem getLsbD_commandWord (op : BitVec 6) (imm : BitVec 5) (i : Nat) :
    (commandWord op imm).getLsbD i =
      if i < 6 then op.getLsbD i else if i - 6 < 5 then imm.getLsbD (i - 6) else false := by
  have h : (commandWord op imm).getLsbD i = (0#5 ++ imm ++ op : BitVec (5 + 5 + 6)).getLsbD i := rfl
  rw [h, BitVec.getLsbD_append, BitVec.getLsbD_append]
  simp

@[simp] theorem opField_commandWord (op : BitVec 6) (imm : BitVec 5) :
    opField (commandWord op imm) = op := by
  apply BitVec.eq_of_getLsbD_eq
  intro i hi
  rw [opField, BitVec.getLsbD_extractLsb', getLsbD_commandWord]
  simp [hi]

@[simp] theorem immField_commandWord (op : BitVec 6) (imm : BitVec 5) :
    immField (commandWord op imm) = imm := by
  apply BitVec.eq_of_getLsbD_eq
  intro i hi
  rw [immField, BitVec.getLsbD_extractLsb', getLsbD_commandWord]
  simp [hi]

@[simp] theorem zeroField_commandWord (op : BitVec 6) (imm : BitVec 5) :
    zeroField (commandWord op imm) = 0 := by
  apply BitVec.eq_of_getLsbD_eq
  intro i hi
  rw [zeroField, BitVec.getLsbD_extractLsb', getLsbD_commandWord,
    if_neg (by omega), if_neg (by omega)]
  simp

@[simp] theorem mnemonicOf_opcode (m : Mnemonic) : mnemonicOf m.opcode = some m := by
  cases m <;> rfl

theorem opcode_of_mnemonicOf {op : BitVec 6} {m : Mnemonic} (h : mnemonicOf op = some m) :
    m.opcode = op := by simpa using List.find?_some h

theorem cmd_of_encode (i : Instr) : (encode i).cmd = commandWord i.parts.1.opcode i.parts.2.1 := rfl

theorem opField_encode (i : Instr) : opField (encode i).cmd = i.parts.1.opcode := by
  rw [cmd_of_encode, opField_commandWord]

theorem zeroField_encode (i : Instr) : zeroField (encode i).cmd = 0 := by
  rw [cmd_of_encode, zeroField_commandWord]

end Sys2Proof
end

