-- ==== Sys2Proof/Laws/State.lean ====
section
/-! SUPPORT. What every update of the state does to every field, and the state after a whole update. -/

namespace Sys2Proof.Machine

@[simp] theorem State.complete_inst (v : Int) (s : State) : (State.complete v s).inst = s.inst := rfl
@[simp] theorem State.complete_y (v : Int) (s : State) : (State.complete v s).y = BitVec.ofInt 64 v := rfl
@[simp] theorem State.complete_err (v : Int) (s : State) : (State.complete v s).err = 0 := rfl
@[simp] theorem State.complete_inFlight (v : Int) (s : State) : (State.complete v s).inFlight = none := rfl
@[simp] theorem State.complete_rspValid (v : Int) (s : State) : (State.complete v s).rspValid = true := rfl
@[simp] theorem State.complete_ticks (v : Int) (s : State) : (State.complete v s).ticks = s.ticks := rfl

@[simp] theorem State.raiseError_inst (e : ErrorCondition) (s : State) : (State.raiseError e s).inst = s.inst := rfl
@[simp] theorem State.raiseError_y (e : ErrorCondition) (s : State) : (State.raiseError e s).y = s.y := rfl
@[simp] theorem State.raiseError_err (e : ErrorCondition) (s : State) : (State.raiseError e s).err = e.code := rfl
@[simp] theorem State.raiseError_inFlight (e : ErrorCondition) (s : State) : (State.raiseError e s).inFlight = none := rfl
@[simp] theorem State.raiseError_rspValid (e : ErrorCondition) (s : State) : (State.raiseError e s).rspValid = true := rfl
@[simp] theorem State.raiseError_ticks (e : ErrorCondition) (s : State) : (State.raiseError e s).ticks = s.ticks := rfl

@[simp] theorem State.applyReset_inst (s : State) : (State.applyReset s).inst = s.inst := rfl
@[simp] theorem State.applyReset_y (s : State) : (State.applyReset s).y = 0 := rfl
@[simp] theorem State.applyReset_err (s : State) : (State.applyReset s).err = 0 := rfl
@[simp] theorem State.applyReset_inFlight (s : State) : (State.applyReset s).inFlight = none := rfl
@[simp] theorem State.applyReset_rspValid (s : State) : (State.applyReset s).rspValid = false := rfl
@[simp] theorem State.applyReset_ticks (s : State) : (State.applyReset s).ticks = s.ticks := rfl

@[simp] theorem State.advance_inst (s : State) : (State.advance s).inst = s.inst := rfl
@[simp] theorem State.advance_y (s : State) : (State.advance s).y = s.y := rfl
@[simp] theorem State.advance_err (s : State) : (State.advance s).err = s.err := rfl
@[simp] theorem State.advance_inFlight (s : State) : (State.advance s).inFlight = s.inFlight := rfl
@[simp] theorem State.advance_rspValid (s : State) : (State.advance s).rspValid = false := rfl
@[simp] theorem State.advance_ticks (s : State) : (State.advance s).ticks = s.ticks.tail := rfl

@[simp] theorem State.answered_inst (s : State) (w : Word) : (State.answered s w).inst = s.inst := rfl
@[simp] theorem State.answered_y (s : State) (w : Word) : (State.answered s w).y = w := rfl
@[simp] theorem State.answered_err (s : State) (w : Word) : (State.answered s w).err = 0 := rfl
@[simp] theorem State.answered_inFlight (s : State) (w : Word) : (State.answered s w).inFlight = none := rfl
@[simp] theorem State.answered_rspValid (s : State) (w : Word) : (State.answered s w).rspValid = true := rfl
@[simp] theorem State.answered_ticks (s : State) (w : Word) : (State.answered s w).ticks = s.ticks := rfl

@[simp] theorem State.failedWith_inst (s : State) (c : BitVec 4) : (State.failedWith s c).inst = s.inst := rfl
@[simp] theorem State.failedWith_y (s : State) (c : BitVec 4) : (State.failedWith s c).y = s.y := rfl
@[simp] theorem State.failedWith_err (s : State) (c : BitVec 4) : (State.failedWith s c).err = c := rfl
@[simp] theorem State.failedWith_inFlight (s : State) (c : BitVec 4) : (State.failedWith s c).inFlight = none := rfl
@[simp] theorem State.failedWith_rspValid (s : State) (c : BitVec 4) : (State.failedWith s c).rspValid = true := rfl
@[simp] theorem State.failedWith_ticks (s : State) (c : BitVec 4) : (State.failedWith s c).ticks = s.ticks := rfl

@[simp] theorem State.resetOf_inst (p : Instance) (ts : List Tick) : (State.resetOf p ts).inst = p := rfl
@[simp] theorem State.resetOf_y (p : Instance) (ts : List Tick) : (State.resetOf p ts).y = 0 := rfl
@[simp] theorem State.resetOf_err (p : Instance) (ts : List Tick) : (State.resetOf p ts).err = 0 := rfl
@[simp] theorem State.resetOf_inFlight (p : Instance) (ts : List Tick) : (State.resetOf p ts).inFlight = none := rfl
@[simp] theorem State.resetOf_rspValid (p : Instance) (ts : List Tick) : (State.resetOf p ts).rspValid = false := rfl
@[simp] theorem State.resetOf_ticks (p : Instance) (ts : List Tick) : (State.resetOf p ts).ticks = ts := rfl

@[simp] theorem State.accept_of_busy (t : Tick) (s : State) (c : Command) (h : s.inFlight = some c) :
    s.accept t = s := by simp [State.accept, h]

@[simp] theorem State.accept_of_idle (t : Tick) (s : State) (h : s.inFlight = none)
    (hv : t.cmdValid = false) : s.accept t = s := by simp [State.accept, h, hv]

@[simp] theorem State.accept_of_presented (t : Tick) (s : State) (h : s.inFlight = none)
    (hv : t.cmdValid = true) : s.accept t = { s with inFlight := some t.command } := by
  simp [State.accept, h, hv]

@[simp] theorem State.accept_inst (t : Tick) (s : State) : (s.accept t).inst = s.inst := by
  unfold State.accept; split <;> [rfl; (split <;> rfl)]
@[simp] theorem State.accept_y (t : Tick) (s : State) : (s.accept t).y = s.y := by
  unfold State.accept; split <;> [rfl; (split <;> rfl)]
@[simp] theorem State.accept_err (t : Tick) (s : State) : (s.accept t).err = s.err := by
  unfold State.accept; split <;> [rfl; (split <;> rfl)]
@[simp] theorem State.accept_rspValid (t : Tick) (s : State) : (s.accept t).rspValid = s.rspValid := by
  unfold State.accept; split <;> [rfl; (split <;> rfl)]
@[simp] theorem State.accept_ticks (t : Tick) (s : State) : (s.accept t).ticks = s.ticks := by
  unfold State.accept; split <;> [rfl; (split <;> rfl)]

/-- Completing with `v` leaves the state that claims call `answered`. -/
theorem State.complete_eq_answered (v : Int) (s : State) :
    s.complete v = s.answered (BitVec.ofInt 64 v) := rfl

/-- Raising `e` leaves the state that claims call `failedWith` its code. -/
theorem State.raiseError_eq_failedWith (e : ErrorCondition) (s : State) :
    s.raiseError e = s.failedWith e.code := rfl

@[simp] theorem State.tick_of_cons (s : State) (t : Tick) (ts : List Tick) (h : s.ticks = t :: ts) :
    s.tick = t := by simp [State.tick, h]

@[simp] theorem State.tick_of_nil (s : State) (h : s.ticks = []) : s.tick = Tick.quiet := by
  simp [State.tick, h]

@[simp] theorem State.busy_eq_isSome (s : State) : s.busy = s.inFlight.isSome := rfl

end Sys2Proof.Machine
end

