-- ==== Sys2Proof/Laws/Ops.lean ====
section
/-! SUPPORT. What each shared operation can do, said once: integers, the end of a command, and the steps of
the handshake. Later proofs cite these lemmas and do not unfold the operations. -/

namespace Sys2Proof.Machine

/-! ### Words and integers -/

theorem fits_iff (z : Int) :
    Fits z ↔ -9223372036854775808 ≤ z ∧ z ≤ 9223372036854775807 := Iff.rfl

theorem fits_signed (w : Word) : Fits (signed w) := by
  have h1 := BitVec.le_toInt w
  have h2 := BitVec.toInt_lt (x := w)
  simp only [fits_iff, signed]
  norm_num at h1 h2
  omega

theorem fits_zero : Fits 0 := by unfold Fits; decide

theorem wrap64_fits (z : Int) : Fits (wrap64 z) := by
  have h1 := Int.le_bmod (x := z) (m := 18446744073709551616) (by decide)
  have h2 := Int.bmod_lt (x := z) (m := 18446744073709551616) (by decide)
  simp only [fits_iff, wrap64]
  norm_num at h1 h2
  omega

theorem wrap64_of_fits {z : Int} (h : Fits z) : wrap64 z = z := by
  rw [fits_iff] at h
  unfold wrap64
  apply Int.bmod_eq_of_le <;> norm_num <;> omega

/-- Writing a word to `Y` and reading it back signed is wrapping. -/
theorem toInt_ofInt_eq_wrap64 (z : Int) : (BitVec.ofInt 64 z).toInt = wrap64 z :=
  BitVec.toInt_ofInt z

/-- A value that fits is the signed reading of the word written for it. -/
theorem toInt_ofInt_of_fits {z : Int} (h : Fits z) : (BitVec.ofInt 64 z).toInt = z := by
  rw [toInt_ofInt_eq_wrap64, wrap64_of_fits h]

theorem ofInt_wrap64 (z : Int) : BitVec.ofInt 64 (wrap64 z) = BitVec.ofInt 64 z := by
  apply BitVec.eq_of_toInt_eq
  rw [toInt_ofInt_of_fits (wrap64_fits z), toInt_ofInt_eq_wrap64]

@[simp] theorem ofInt_signed (w : Word) : BitVec.ofInt 64 (signed w) = w := BitVec.ofInt_toInt

theorem sat64_of_fits {z : Int} (h : Fits z) : sat64 z = z := by
  unfold sat64; unfold Fits at h; split <;> [omega; (split <;> [omega; rfl])]

theorem sat64_mono_fits (z : Int) : Fits (sat64 z) := by
  unfold sat64 Fits
  have : min64 ≤ max64 := by decide
  split <;> [omega; (split <;> omega)]

theorem sat64_sign (z : Int) : (0 < z → 0 < sat64 z) ∧ (z < 0 → sat64 z < 0) := by
  unfold sat64 min64 max64; constructor <;> intro h <;> split <;> [skip; split; skip; split] <;> omega

theorem p10_eq (k : Nat) : p10 k = 10 ^ k := by simp [p10]

theorem p10_pos (k : Nat) : 0 < p10 k := by rw [p10_eq]; positivity

theorem p10_le_p10 {j k : Nat} (h : j ≤ k) : p10 j ≤ p10 k := by
  rw [p10_eq, p10_eq]; exact pow_le_pow_right₀ (by norm_num) h

/-- Every scale of the block fits a word. -/
theorem p10_le (k : Nat) (h : k ≤ 18) : p10 k ≤ 1000000000000000000 :=
  (p10_le_p10 h).trans (by decide)

@[simp] theorem tdiv_zero_left (d : Int) : tdiv 0 d = 0 := by simp [tdiv]

@[simp] theorem rha_zero (d : Int) : rha 0 d = 0 := by simp [rha]

theorem rha_neg (n d : Int) : rha (-n) d = -rha n d := by simp [rha]

/-- The rounded quotient is never larger in magnitude than the dividend. -/
theorem abs_rha_le (n d : Int) (h : 0 < d) : |rha n d| ≤ |n| := by
  unfold rha
  rw [abs_mul]
  have hq : 0 ≤ (2 * (n.natAbs : Int) + d) / (2 * d) := by positivity
  have hle : n ≠ 0 → (2 * (n.natAbs : Int) + d) / (2 * d) ≤ n.natAbs := by
    intro hn
    have hn1 : (1 : Int) ≤ n.natAbs := by omega
    apply Int.lt_add_one_iff.mp
    apply Int.ediv_lt_of_lt_mul (by omega)
    nlinarith
  rcases eq_or_ne n 0 with rfl | hn
  · simp
  · rw [abs_of_nonneg hq, Int.abs_eq_natAbs n]
    have : |n.sign| = 1 := by
      rcases lt_or_gt_of_ne hn with h | h
      · simp [Int.sign_eq_neg_one_of_neg h]
      · simp [Int.sign_eq_one_of_pos h]
    rw [this, one_mul]; exact hle hn

/-- Rounding a word down in scale gives a word, but for the divisor 1 at the two ends nothing is near. -/
theorem fits_of_abs_le {z w : Int} (hw : Fits w) (h : |z| ≤ |w|) (hmin : z ≠ -min64) : Fits z := by
  simp only [Fits, min64, max64] at *
  have h3 := abs_le.mp (h.trans (abs_le.mpr ⟨by omega, by omega⟩ : |w| ≤ 9223372036854775808))
  omega

theorem rha_sign (n d : Int) (h : 0 < d) : (0 ≤ n → 0 ≤ rha n d) ∧ (n ≤ 0 → rha n d ≤ 0) := by
  have hq : 0 ≤ (2 * (n.natAbs : Int) + d) / (2 * d) := by positivity
  unfold rha
  constructor <;> intro hn
  · exact mul_nonneg (Int.sign_nonneg_iff.mpr hn) hq
  · have : n.sign ≤ 0 := Int.sign_nonpos_iff.mpr hn
    exact mul_nonpos_of_nonpos_of_nonneg this hq

/-- Rounded division of a word by a positive integer gives a word. -/
theorem fits_rha {n : Int} (hn : Fits n) (d : Int) (h : 0 < d) : Fits (rha n d) := by
  refine fits_of_abs_le hn (abs_rha_le n d h) ?_
  intro he
  have h1 := abs_rha_le n d h
  have h2 := rha_sign n d h
  rw [he] at h1 h2
  simp only [Fits, min64, max64] at *
  have h4 : (0 : Int) ≤ n := by by_contra hc; exact absurd (h2.2 (by omega)) (by norm_num)
  rw [abs_of_nonneg h4] at h1
  norm_num at h1
  omega

theorem fits_narrow {v : Int} (hv : Fits v) (s1 s2 : Nat) : Fits (narrow s1 s2 v) :=
  fits_rha hv _ (p10_pos _)

theorem fits_widen (s1 s2 : Nat) (v : Int) : Fits (widen s1 s2 v) := sat64_mono_fits _

/-- Truncated division of a word by a positive integer gives a word. -/
theorem fits_tdiv {n d : Int} (hn : Fits n) (hd : 0 < d) : Fits (tdiv n d) := by
  simp only [Fits, min64, max64, tdiv] at *
  constructor
  · rcases le_or_gt 0 n with h | h
    · have := Int.tdiv_nonneg h hd.le; omega
    · have h1 : (-n).tdiv d ≤ -n := Int.tdiv_le_self d (by omega)
      rw [Int.neg_tdiv] at h1; omega
  · rcases le_or_gt 0 n with h | h
    · have := Int.tdiv_le_self d h; omega
    · have : (-n).tdiv d ≥ 0 := Int.tdiv_nonneg (by omega) hd.le
      rw [Int.neg_tdiv] at this; omega

theorem fits_fxMul (s : Nat) (a b : Int) : Fits (fxMul s a b) := by
  unfold fxMul scaleProduct
  apply fits_tdiv _ (p10_pos s)
  split <;> exact wrap64_fits _

theorem fits_fxNeg (a : Int) : Fits (fxNeg a) := wrap64_fits _

/-- A division either has a zero divisor and raises, or gives a word. -/
theorem fxDiv_cases (s : Nat) (a b : Int) :
    (b = 0 ∧ fxDiv s a b = .error .divisionByZero) ∨
    (b ≠ 0 ∧ ∃ q, fxDiv s a b = .ok q ∧ Fits q) := by
  unfold fxDiv
  by_cases h : b = 0
  · exact .inl ⟨h, by simp [h]⟩
  · exact .inr ⟨h, _, if_neg h, wrap64_fits _⟩

/-- Multiplying by zero gives zero at every scale of the block. -/
theorem fxMul_zero_left (s : Nat) (hs : s ≤ 18) (m : Int) : fxMul s 0 m = 0 := by
  have hp := p10_pos s
  have hle := p10_le s hs
  have h1 : wrap64 0 = 0 := by decide
  have hd : tdiv (p10 s) 2 = p10 s / 2 := Int.tdiv_eq_ediv_of_nonneg hp.le
  have hf : Fits (p10 s / 2) := by rw [fits_iff]; omega
  simp only [fxMul, scaleProduct, zero_mul, h1, le_refl, if_true, zero_add, hd,
    wrap64_of_fits hf]
  rw [tdiv, Int.tdiv_eq_ediv_of_nonneg (by omega)]
  exact Int.ediv_eq_zero_of_lt (by omega) (by omega)

end Sys2Proof.Machine
end

