-- ==== Sys2Proof/Laws/Machine.lean ====
section
/-! SUPPORT. The end of a command, the meanings, and one step of the handshake, each said once. -/

namespace Sys2Proof.Machine

theorem code_toNat_le (e : ErrorCondition) : e.code.toNat ≤ 8 := by cases e <;> decide

theorem code_ne_zero (e : ErrorCondition) : e.code ≠ 0 := by cases e <;> decide

theorem conclude_ok (v : Int) (s : State) :
    conclude (.ok v) s = .next (s.answered (BitVec.ofInt 64 v)) := rfl

theorem conclude_error (e : ErrorCondition) (s : State) :
    conclude (.error e) s = .next (s.failedWith e.code) := rfl

/-- A command's end is a completion with a word or a completion in error, and nothing else. -/
theorem conclude_cases (r : Result) (s t : State) (h : conclude r s = .next t) :
    (∃ v, r = .ok v ∧ t = s.answered (BitVec.ofInt 64 v)) ∨
    (∃ e, r = .error e ∧ t = s.failedWith e.code) := by
  cases r with
  | ok v => exact .inl ⟨v, rfl, by injection h with h; exact h.symm⟩
  | error e => exact .inr ⟨e, rfl, by injection h with h; exact h.symm⟩

/-- What the rule of a command computes: the result word or the condition it raises. -/
def resultOf (p : Instance) : Instr → Result
  | .fromraw a => .ok (signed a)
  | .fromint a => .ok (sat64 (signed a * p10 p.F))
  | .fromflt a => fromFlt p.F a
  | .from2p a b => .ok (sat64 (twoPart p.F (signed a) (unsigned b)))
  | .scale => .ok (p10 p.F)
  | .const k => if 8 < immediate k then .error .illegalCommand else .ok (constWord p.F (immediate k))
  | .add a b => .ok (fxAdd (signed a) (signed b))
  | .sub a b => .ok (fxSub (signed a) (signed b))
  | .neg a => .ok (fxNeg (signed a))
  | .abs a => .ok (fxAbs (signed a))
  | .mul a b => .ok (fxMul p.F (signed a) (signed b))
  | .div a b => fxDiv p.F (signed a) (signed b)
  | .rem a b => fxRem (signed a) (signed b)
  | .incf n a => if 18 < immediate n then .error .illegalCommand
      else if immediate n < p.F then .error .precisionDirectionViolation
      else .ok (widen p.F (immediate n) (signed a))
  | .decf n a => if 18 < immediate n then .error .illegalCommand
      else if p.F < immediate n then .error .precisionDirectionViolation
      else .ok (narrow p.F (immediate n) (signed a))
  | .sqrt a => fxSqrt p.F (signed a)
  | .fact a => fxFact p.F (signed a)
  | .norm a => .ok (normAngle p.F (signed a))
  | .sin a => engine p (fun tf x => .ok (sinTf tf x)) a
  | .cos a => engine p (fun tf x => .ok (cosTf tf x)) a
  | .tan a => engine p tanTf a
  | .cot a => engine p cotTf a
  | .sinh a => engine p (fun tf x => .ok (sinhTf tf x)) a
  | .cosh a => engine p (fun tf x => .ok (coshTf tf x)) a
  | .tanh a => engine p tanhTf a
  | .coth a => engine p cothTf a
  | .ln a => if signed a ≤ 0 then .error .nonPositiveLogarithm else engine p lnTf a
  | .asinh a => engine p asinhTf a
  | .acosh a => engine p acoshTf a
  | .atanh a => engine p atanhTf a
  | .acoth a => engine p acothTf a

/-- Every meaning ends a command with what its rule computes from the instruction and the instance
parameters: the one lemma from which facts about all instructions follow. -/
theorem exec_eq_conclude (i : Instr) (s : State) : exec i s = conclude (resultOf s.inst i) s := by
  cases i <;> rfl

/-- Every instruction answers a next state: with a word, or in error. -/
theorem exec_cases (i : Instr) (s : State) :
    (∃ v, resultOf s.inst i = .ok v ∧ exec i s = .next (s.answered (BitVec.ofInt 64 v))) ∨
    (∃ e, resultOf s.inst i = .error e ∧ exec i s = .next (s.failedWith e.code)) := by
  rw [exec_eq_conclude]
  cases h : resultOf s.inst i with
  | ok v => exact .inl ⟨v, rfl, conclude_ok v s⟩
  | error e => exact .inr ⟨e, rfl, conclude_error e s⟩

theorem exec_of_ok {i : Instr} {s : State} {v : Int} (h : resultOf s.inst i = .ok v) :
    exec i s = .next (s.answered (BitVec.ofInt 64 v)) := by rw [exec_eq_conclude, h, conclude_ok]

theorem exec_of_error {i : Instr} {s : State} {e : ErrorCondition} (h : resultOf s.inst i = .error e) :
    exec i s = .next (s.failedWith e.code) := by rw [exec_eq_conclude, h, conclude_error]

theorem runCommand_of_legal {c : Command} {i : Instr} (h : decode c = .ok i) (s : State) :
    runCommand c s = exec i s := by simp [runCommand, h]

theorem runCommand_of_illegal {c : Command} {e : Illegal} (h : decode c = .error e) (s : State) :
    runCommand c s = .next (s.failedWith 8) := by simp [runCommand, h]; rfl

/-- Running a command, legal or not, is a completion with a word or in error; which of the two, and the
word or the code, is settled by the command and the instance. -/
theorem runCommand_cases (c : Command) (p : Instance) :
    (∃ w, ∀ s : State, s.inst = p → runCommand c s = .next (s.answered w)) ∨
    (∃ e : ErrorCondition, ∀ s : State, s.inst = p → runCommand c s = .next (s.failedWith e.code)) := by
  cases h : decode c with
  | error e => exact .inr ⟨.illegalCommand, fun s _ => runCommand_of_illegal h s⟩
  | ok i =>
    cases hr : resultOf p i with
    | ok v =>
      exact .inl ⟨_, fun s hs => by
        rw [runCommand_of_legal h, exec_eq_conclude, hs, hr]; exact conclude_ok v s⟩
    | error e =>
      exact .inr ⟨e, fun s hs => by
        rw [runCommand_of_legal h, exec_eq_conclude, hs, hr]; exact conclude_error e s⟩

/-- The command that is in flight once this step's acceptance is over. -/
def State.taken (s : State) : Option Command := (s.advance.accept s.tick).inFlight

theorem taken_of_busy {s : State} {c : Command} (h : s.inFlight = some c) : s.taken = some c := by
  unfold State.taken
  rw [State.accept_of_busy _ _ c (by simpa using h)]; exact h

theorem taken_of_idle {s : State} (h : s.inFlight = none) :
    s.taken = if s.tick.cmdValid then some s.tick.command else none := by
  cases hv : s.tick.cmdValid
  · simp [State.taken, hv, h]
  · simp [State.taken, hv, h]

/-- All that one step can do: reset, run the command taken, or wait. -/
theorem step_cases (s : State) :
    (s.tick.rst = true ∧ step s = .next s.advance.applyReset) ∨
    (s.tick.rst = false ∧ s.taken = none ∧ step s = .next (s.advance.accept s.tick)) ∨
    (∃ c, s.tick.rst = false ∧ s.taken = some c ∧ s.tick.elapsed = false ∧
      step s = .next (s.advance.accept s.tick)) ∨
    (∃ c, s.tick.rst = false ∧ s.taken = some c ∧ s.tick.elapsed = true ∧
      step s = runCommand c (s.advance.accept s.tick)) := by
  unfold step work
  cases hr : s.tick.rst
  · cases hc : s.taken with
    | none =>
      refine .inr (.inl ⟨rfl, rfl, ?_⟩)
      unfold State.taken at hc
      simp [hc]
    | some c =>
      unfold State.taken at hc
      cases he : s.tick.elapsed
      · exact .inr (.inr (.inl ⟨c, rfl, rfl, rfl, by simp [hc]⟩))
      · exact .inr (.inr (.inr ⟨c, rfl, rfl, rfl, by simp [hc]⟩))
  · exact .inl ⟨rfl, by simp⟩

/-- A run of one more step, once the first is known to answer. -/
theorem run_succ (M : Host.Core) (k : Nat) (s t : M.State) (h : M.step s = .next t) :
    M.run (k + 1) s = M.run k t := by simp [Host.Core.run, h]

/-- What running a command leaves: the response registers of the atomic view, no command in flight, the pulse
of `rsp_valid`, and the rest as it was. -/
theorem runCommand_respond (s : State) (c : Command) (t : State) (h : runCommand c s = .next t) :
    (t.y, t.err) = respond s.inst (s.y, s.err) c ∧ t.inst = s.inst ∧ t.ticks = s.ticks ∧
      t.inFlight = none ∧ t.rspValid = true := by
  have key : step { State.resetOf s.inst [⟨false, true, c, true⟩] with y := s.y, err := s.err } =
      runCommand c ⟨s.inst, s.y, s.err, some c, false, []⟩ := by
    simp [step, work, State.tick, State.accept, State.advance, State.resetOf]
  unfold respond
  rw [key]
  rcases runCommand_cases c s.inst with ⟨w, hw⟩ | ⟨e, hw⟩ <;>
    (rw [hw s rfl] at h; injection h with h; subst h; rw [hw ⟨s.inst, s.y, s.err, some c, false, []⟩ rfl]; simp)

end Sys2Proof.Machine
end

