-- ==== Sys2Proof/Laws/Engine.lean ====
section
/-! SUPPORT. The series accumulator and the engine commands: every intermediate is a word, and what the end of
an engine command is. -/

namespace Sys2Proof.Machine

/-- A step function of the block makes the term 0 from the term 0 (spec 46_series_accumulator.md R152). -/
theorem seriesStep_zero (tf : Nat) (h : tf ≤ 18) (m : Int) (p q : Nat → Int) (n : Nat) :
    seriesStep tf m p q 0 n = 0 := by
  simp [seriesStep, fxMul_zero_left tf h]

/-- The running sum is always a word: the first term is one, and every addition wraps. -/
theorem fits_seriesLoop (f : Int → Nat → Int) (fuel n : Nat) (t s : Int) (hs : Fits s) :
    Fits (seriesLoop f fuel n t s) := by
  induction fuel generalizing n t s with
  | zero => exact hs
  | succ k ih =>
    unfold seriesLoop
    split
    · exact hs
    · exact ih _ _ _ (wrap64_fits _)

theorem fits_series (tf : Nat) (t0 : Int) (f : Int → Nat → Int) (h : Fits t0) :
    Fits (series tf t0 f) := fits_seriesLoop f _ _ _ _ h

/-- A loop that starts at the term 0 returns its sum. -/
theorem seriesLoop_term_zero (f : Int → Nat → Int) (fuel n : Nat) (s : Int) :
    seriesLoop f fuel n 0 s = s := by
  cases fuel <;> simp [seriesLoop, epsRaw]

/-- One pass of the loop at a term that is not 0. -/
theorem seriesLoop_succ (f : Int → Nat → Int) (fuel n : Nat) (t s : Int) (h : t ≠ 0) :
    seriesLoop f (fuel + 1) n t s = seriesLoop f fuel (n + 1) (f t n) (wrap64 (s + f t n)) := by
  have : ¬ (t.natAbs : Int) < epsRaw := by unfold epsRaw; omega
  rw [seriesLoop, if_neg this]

/-- The end of an engine command whose function never raises. -/
theorem engine_ok (p : Instance) (g : Nat → Int → Int) (a : Word) :
    engine p (fun tf x => .ok (g tf x)) a
      = .ok (narrow p.TF p.F (g p.TF (widen p.F p.TF (signed a)))) := rfl

/-- The end of an engine command whose function raises. -/
theorem engine_of_error {p : Instance} {g : Nat → Int → Result} {a : Word} {e : ErrorCondition}
    (h : g p.TF (widen p.F p.TF (signed a)) = .error e) : engine p g a = .error e := by
  simp [engine, h, Except.map]

/-- The end of an engine command whose function gives the word `v`. -/
theorem engine_of_ok {p : Instance} {g : Nat → Int → Result} {a : Word} {v : Int}
    (h : g p.TF (widen p.F p.TF (signed a)) = .ok v) :
    engine p g a = .ok (narrow p.TF p.F v) := by
  simp [engine, h, Except.map]

/-- The table of constants at the scales of the block is positive from entry 1 on, and fits. -/
theorem constWord_bounds (s : Nat) (h : s ≤ 18) :
    0 < piWord s ∧ Fits (piWord s) ∧ 0 < tauWord s ∧ Fits (tauWord s) ∧
      0 < halfPi s ∧ Fits (halfPi s) ∧ 0 < ln2Word s ∧ Fits (ln2Word s) ∧
      tauWord s ≤ 2 * piWord s + 1 ∧ 2 * piWord s ≤ tauWord s + 1 ∧
      2 * halfPi s ≤ piWord s ∧ piWord s ≤ 2 * halfPi s + 1 := by
  simp only [fits_iff]
  interval_cases s <;> decide

/-- All that the halving loop can do (spec 49_logarithm.md R190): some number of halvings, each one because
the word before it is above `two`; it ends with a word that is not, unless the passes are used up. -/
theorem halveLoop_spec (two : Int) (fuel : Nat) (x k : Int) (hx : 0 ≤ x) :
    ∃ j : Nat, halveLoop two fuel x k = (x / 2 ^ j, k + j) ∧ j ≤ fuel ∧
      (∀ i < j, two < x / 2 ^ i) ∧ (j < fuel → x / 2 ^ j ≤ two) := by
  induction fuel generalizing x k with
  | zero => exact ⟨0, by simp [halveLoop]⟩
  | succ n ih =>
    rw [halveLoop]
    split
    · rename_i h
      have hd : tdiv x 2 = x / 2 := Int.tdiv_eq_ediv_of_nonneg hx
      have hp : ∀ i : Nat, x / 2 / 2 ^ i = x / 2 ^ (i + 1) := fun i => by
        rw [Int.ediv_ediv_of_nonneg (by norm_num), pow_succ, mul_comm]
      obtain ⟨j, he, hj, hi, hl⟩ := ih (x / 2) (k + 1) (by omega)
      refine ⟨j + 1, by rw [hd, he, hp]; push_cast; ring_nf, by omega, fun i hij => ?_, fun hjn => ?_⟩
      · cases i with
        | zero => simpa using h
        | succ i => rw [← hp]; exact hi i (by omega)
      · rw [← hp]; exact hl (by omega)
    · exact ⟨0, by simp, by omega, by simp, fun _ => by simp; omega⟩

/-- All that the doubling loop can do (R190). -/
theorem doubleLoop_spec (half : Int) (fuel : Nat) (x k : Int) :
    ∃ j : Nat, doubleLoop half fuel x k = (x * 2 ^ j, k - j) ∧ j ≤ fuel ∧
      (∀ i < j, x * 2 ^ i < half) ∧ (j < fuel → half ≤ x * 2 ^ j) := by
  induction fuel generalizing x k with
  | zero => exact ⟨0, by simp [doubleLoop]⟩
  | succ n ih =>
    rw [doubleLoop]
    split
    · rename_i h
      have hp : ∀ i : Nat, 2 * x * 2 ^ i = x * 2 ^ (i + 1) := fun i => by ring
      obtain ⟨j, he, hj, hi, hl⟩ := ih (2 * x) (k - 1)
      refine ⟨j + 1, by rw [he, hp]; push_cast; ring_nf, by omega, fun i hij => ?_, fun hjn => ?_⟩
      · cases i with
        | zero => simpa using h
        | succ i => rw [← hp]; exact hi i (by omega)
      · rw [← hp]; exact hl (by omega)
    · exact ⟨0, by simp, by omega, by simp, fun _ => by simp; omega⟩

theorem widen_self (s : Nat) {v : Int} (h : Fits v) : widen s s v = v := by
  simp [widen, p10, sat64_of_fits h]

end Sys2Proof.Machine
end

