-- ==== Sys2Proof/Laws/PerInstr.lean ====
section
/-! SUPPORT. One statement about every instruction as syntax, proved per constructor: the command word encoded
for it has the opcode of its mnemonic, and the decoder's opcode map reads that mnemonic back. -/

namespace Sys2Proof.Laws.OpcodeField

/-- The encoded word has zero reserved bits and an opcode that names the instruction's own mnemonic (spec
30_encoding.md R60, R64). -/
def Statement (i : Instr) : Prop :=
  zeroField (encode i).cmd = 0 ∧ mnemonicOf (opField (encode i).cmd) = some i.parts.1

theorem all (i : Instr) : Statement i :=
  ⟨zeroField_encode i, by rw [opField_encode, mnemonicOf_opcode]⟩

theorem fromraw (a : Word) : Statement (.fromraw a) := all _
theorem fromint (a : Word) : Statement (.fromint a) := all _
theorem fromflt (a : Word) : Statement (.fromflt a) := all _
theorem from2p (a : Word) (b : Word) : Statement (.from2p a b) := all _
theorem scale : Statement (.scale) := all _
theorem const (k : BitVec 5) : Statement (.const k) := all _
theorem add (a : Word) (b : Word) : Statement (.add a b) := all _
theorem sub (a : Word) (b : Word) : Statement (.sub a b) := all _
theorem neg (a : Word) : Statement (.neg a) := all _
theorem abs (a : Word) : Statement (.abs a) := all _
theorem mul (a : Word) (b : Word) : Statement (.mul a b) := all _
theorem div (a : Word) (b : Word) : Statement (.div a b) := all _
theorem rem (a : Word) (b : Word) : Statement (.rem a b) := all _
theorem incf (k : BitVec 5) (a : Word) : Statement (.incf k a) := all _
theorem decf (k : BitVec 5) (a : Word) : Statement (.decf k a) := all _
theorem sqrt (a : Word) : Statement (.sqrt a) := all _
theorem fact (a : Word) : Statement (.fact a) := all _
theorem norm (a : Word) : Statement (.norm a) := all _
theorem sin (a : Word) : Statement (.sin a) := all _
theorem cos (a : Word) : Statement (.cos a) := all _
theorem tan (a : Word) : Statement (.tan a) := all _
theorem cot (a : Word) : Statement (.cot a) := all _
theorem sinh (a : Word) : Statement (.sinh a) := all _
theorem cosh (a : Word) : Statement (.cosh a) := all _
theorem tanh (a : Word) : Statement (.tanh a) := all _
theorem coth (a : Word) : Statement (.coth a) := all _
theorem ln (a : Word) : Statement (.ln a) := all _
theorem asinh (a : Word) : Statement (.asinh a) := all _
theorem acosh (a : Word) : Statement (.acosh a) := all _
theorem atanh (a : Word) : Statement (.atanh a) := all _
theorem acoth (a : Word) : Statement (.acoth a) := all _

end Sys2Proof.Laws.OpcodeField
end

