-- ==== Sys2Proof/Machine/AssemblerText.lean ====
section
/-! DEFINITION. The text of assembler lines (spec 30_encoding.md R70 to R72), read into the parts of
Machine/Assembler.lean. The block never sees it. -/

namespace Sys2Proof.Machine

/-- The name of a command (R64). -/
def mnemonicName : Mnemonic → String
  | .FROMRAW => "FROMRAW" | .FROMINT => "FROMINT" | .FROMFLT => "FROMFLT" | .FROM2P => "FROM2P"
  | .SCALE => "SCALE" | .CONST => "CONST" | .ADD => "ADD" | .SUB => "SUB"
  | .NEG => "NEG" | .ABS => "ABS" | .MUL => "MUL" | .DIV => "DIV"
  | .REM => "REM" | .INCF => "INCF" | .DECF => "DECF" | .SQRT => "SQRT"
  | .FACT => "FACT" | .NORM => "NORM" | .SIN => "SIN" | .COS => "COS"
  | .TAN => "TAN" | .COT => "COT" | .SINH => "SINH" | .COSH => "COSH"
  | .TANH => "TANH" | .COTH => "COTH" | .LN => "LN" | .ASINH => "ASINH"
  | .ACOSH => "ACOSH" | .ATANH => "ATANH" | .ACOTH => "ACOTH"

/-- The name of a constant (R93). -/
def constantName : ConstName → String
  | .ZERO => "ZERO" | .ONE => "ONE" | .PI => "PI" | .TAU => "TAU" | .PHI => "PHI"
  | .GAMMA => "GAMMA" | .SQRT2 => "SQRT2" | .E => "E" | .LN2 => "LN2"

/-- The name of a compound assignment (R72). -/
def compoundName : Compound → String
  | .ADDA => "ADDA" | .SUBA => "SUBA" | .MULA => "MULA" | .DIVA => "DIVA" | .REMA => "REMA"

/-- The named constants in the order of R93. -/
def allConstNames : List ConstName := [.ZERO, .ONE, .PI, .TAU, .PHI, .GAMMA, .SQRT2, .E, .LN2]

/-- The compound assignments in the order of R72. -/
def allCompounds : List Compound := [.ADDA, .SUBA, .MULA, .DIVA, .REMA]

/-- What a line is made of: words, commas and equals signs, apart from spaces. -/
inductive Token where
  | word (cs : List Char)
  | comma
  | equals
  deriving DecidableEq, Repr

/-- The word read so far, if any, before the tokens `ts`. -/
def flushWord (acc : List Char) (ts : List Token) : List Token :=
  if acc.isEmpty then ts else .word acc.reverse :: ts

/-- The tokens of a line, `acc` being the word read so far, last character first; a `;` starts a comment
(R70). -/
def tokens (acc : List Char) : List Char → List Token
  | [] => flushWord acc []
  | c :: cs =>
    if c = ';' then flushWord acc []
    else if c = ' ' then flushWord acc (tokens [] cs)
    else if c = ',' then flushWord acc (.comma :: tokens [] cs)
    else if c = '=' then flushWord acc (.equals :: tokens [] cs)
    else tokens (c :: acc) cs

/-- The words of a list of arguments separated by commas. -/
def arguments : List Token → Option (List (List Char))
  | [] => some []
  | [.word w] => some [w]
  | .word w :: .comma :: .word v :: ts => (arguments (.word v :: ts)).map (w :: ·)
  | _ => none

/-- The value of a digit, in hexadecimal. -/
def digit (c : Char) : Option Nat :=
  if '0' ≤ c ∧ c ≤ '9' then some (c.toNat - 48)
  else if 'A' ≤ c ∧ c ≤ 'F' then some (c.toNat - 55)
  else if 'a' ≤ c ∧ c ≤ 'f' then some (c.toNat - 87)
  else none

/-- The number of the digits `cs` in the given base, after the digits read as `n`. -/
def digitsFrom (base n : Nat) : List Char → Option Nat
  | [] => some n
  | c :: cs =>
    match digit c with
    | some d => if d < base then digitsFrom base (base * n + d) cs else none
    | none => none

/-- A number of at least one digit. -/
def number (base : Nat) (cs : List Char) : Option Nat :=
  if cs.isEmpty then none else digitsFrom base 0 cs

/-- A decimal literal, if it is the value of a word: unsigned or signed (R70). -/
def decimal (isUnsigned : Bool) (z : Int) : Option Operand :=
  if isUnsigned then (if 0 ≤ z ∧ z < 2 ^ 64 then some (.dec z) else none)
  else if min64 ≤ z ∧ z ≤ max64 then some (.dec z) else none

/-- An operand (R70): a decimal or hexadecimal literal, or a host variable. -/
def operandOf (isUnsigned : Bool) : List Char → Option Operand
  | '%' :: name => if name.isEmpty then none else some (.var (String.ofList name))
  | '0' :: 'x' :: ds => if ds.length ≤ 16 then (number 16 ds).map .hex else none
  | '-' :: ds => (number 10 ds).bind fun n => decimal isUnsigned (-n)
  | ds => (number 10 ds).bind fun n => decimal isUnsigned n

/-- An immediate `#imm` (R70): a decimal integer 0 to 31, or for `CONST` the name of a constant. -/
def immediateOf (m : Mnemonic) : List Char → Option (BitVec 5)
  | '#' :: cs =>
    match number 10 cs with
    | some n => if n ≤ 31 then some (BitVec.ofNat 5 n) else none
    | none =>
      if m = .CONST then (allConstNames.find? fun c => (constantName c).toList == cs).map ConstName.index
      else none
  | _ => none

/-- A command's line from its arguments, by its format (R70). -/
def commandLine (dst : Option String) (m : Mnemonic) (args : List (List Char)) : Option Line :=
  match m.format, args with
  | .N, [] => some ⟨dst, m, 0, none, none⟩
  | .NI, [i] => (immediateOf m i).map fun k => ⟨dst, m, k, none, none⟩
  | .U, [a] => (operandOf false a).map fun x => ⟨dst, m, 0, some x, none⟩
  | .UI, [i, a] =>
    (immediateOf m i).bind fun k => (operandOf false a).map fun x => ⟨dst, m, k, some x, none⟩
  | .B, [a, b] =>
    (operandOf false a).bind fun x =>
      (operandOf (m = .FROM2P) b).map fun z => ⟨dst, m, 0, some x, some z⟩
  | _, _ => none

/-- A pseudo-instruction from its name and its arguments (R72). -/
def pseudoOf (dst : Option String) (name : List Char) (args : List (List Char)) : Option Pseudo :=
  match allConstNames.find? fun c => (constantName c).toList == name with
  | some c => if args.isEmpty then some (.named dst c) else none
  | none =>
    match allCompounds.find? fun c => (compoundName c).toList == name, dst, args with
    | some op, none, ['%' :: x, b] =>
      if x.isEmpty then none else (operandOf false b).map fun o => .compound op (String.ofList x) o
    | none, _, [a] =>
      if "COPY".toList == name then (operandOf false a).map fun o => .copy dst o else none
    | _, _, _ => none

/-- A line without its destination: a command or a pseudo-instruction. -/
def lineOf (dst : Option String) : List Token → Option Line
  | .word name :: ts =>
    (arguments ts).bind fun args =>
      match allMnemonics.find? fun m => (mnemonicName m).toList == name with
      | some m => commandLine dst m args
      | none => (pseudoOf dst name args).map Pseudo.expand
  | _ => none

/-- The assembler on one line of text (R70 to R72): the one line it stands for, none where it holds only a
comment; no answer for a text that the rules give no meaning. -/
def parseLine (text : List Char) : Option (List Line) :=
  match tokens [] text with
  | [] => some []
  | .word ('%' :: x) :: .equals :: ts =>
    if x.isEmpty then none else (lineOf (some (String.ofList x)) ts).map fun l => [l]
  | ts => (lineOf none ts).map fun l => [l]

/-- The assembler on a program, one command a line (R70). -/
def parseProgram : List (List Char) → Option (List Line)
  | [] => some []
  | t :: ts => (parseLine t).bind fun l => (parseProgram ts).map (l ++ ·)

end Sys2Proof.Machine
end

