-- ==== Sys2Proof/Tests/Slice0.lean ====
section
/-! SUPPORT. Tests on fixed values. The expected results are the spec's: the command words are written out from
the fields of 30_encoding.md R60 and the table of R64, the responses are vectors of 95_test_vectors.md (V0,
`F = 6`, `TF = 8`, `Y = 7` before) or worked cases of the command's own rule. Each `witness_` theorem shows
values that meet the hypotheses of the obligation it is named for, at least one for each of its clauses. -/

namespace Sys2Proof.Tests

open Sys2Proof Sys2Proof.Machine

/-! ### Helpers -/

/-- The driving of the ports that presents `c` and lets its latency run out. -/
def present (c : Command) : Tick := ⟨false, true, c, true⟩

/-- An idle block of the instance `p` with `Y = 7`, presented `c`. -/
def blockOf (p : Instance) (c : Command) : State := { State.resetOf p [present c] with y := 7 }

/-- `Y` and `ERR` of a next state. -/
def response : Outcome → Option (Int × Nat)
  | .next t => some (t.y.toInt, t.err.toNat)
  | .fault _ => none
  | .refused _ => none

/-- The next state, if there is one. -/
def nextOf : Outcome → Option State
  | .next t => some t
  | .fault _ => none
  | .refused _ => none

theorem eq_of_nextOf {o : Outcome} {t : State} (h : nextOf o = some t) : o = .next t := by
  cases o <;> simp_all [nextOf]

/-- The reset state with `c` in flight and the driving `ts` of the ports to come. -/
def busyWith (c : Command) (ts : List Tick) : State :=
  { State.reset with inFlight := some c, ticks := ts }

/-- `Y` and `ERR` after one step in which the example instance is presented the command. -/
def answer (cmd : CmdWord) (a b : Int) : Option (Int × Nat) :=
  response (step (blockOf exampleInstance ⟨cmd, BitVec.ofInt 64 a, BitVec.ofInt 64 b⟩))

/-- An idle block of the instance `F`, `TF`, for witnesses. -/
def idle (F TF : Nat) (h : F ≤ TF ∧ TF ≤ 18 := by decide) : State := State.resetOf ⟨F, TF, h.1, h.2⟩ []

/-! ### Well-formedness: each check refuses an ill-formed term -/

theorem test_wellFormed_const : (Instr.const 9).wellFormed = false ∧ (Instr.const 8).wellFormed = true := by
  decide

theorem test_wellFormed_incf :
    (Instr.incf 19 0).wellFormed = false ∧ (Instr.incf 18 0).wellFormed = true := by decide

theorem test_wellFormed_decf :
    (Instr.decf 31 0).wellFormed = false ∧ (Instr.decf 18 0).wellFormed = true := by decide

/-! ### Decoding: `zero(5) imm5(5) op(6)`, bit 15 first -/

theorem test_decode_construction :
    decode ⟨0b00000_00000_000000, 5, 6⟩ = .ok (.fromraw 5) ∧
    decode ⟨0b00000_00000_000001, 5, 6⟩ = .ok (.fromint 5) ∧
    decode ⟨0b00000_00000_000010, 5, 6⟩ = .ok (.fromflt 5) ∧
    decode ⟨0b00000_00000_000011, 5, 6⟩ = .ok (.from2p 5 6) ∧
    decode ⟨0b00000_00000_000100, 5, 6⟩ = .ok .scale ∧
    decode ⟨0b00000_00111_000101, 5, 6⟩ = .ok (.const 7) := by decide

theorem test_decode_arithmetic :
    decode ⟨0b00000_00000_001000, 5, 6⟩ = .ok (.add 5 6) ∧
    decode ⟨0b00000_00000_001001, 5, 6⟩ = .ok (.sub 5 6) ∧
    decode ⟨0b00000_00000_001010, 5, 6⟩ = .ok (.neg 5) ∧
    decode ⟨0b00000_00000_001011, 5, 6⟩ = .ok (.abs 5) ∧
    decode ⟨0b00000_00000_001100, 5, 6⟩ = .ok (.mul 5 6) ∧
    decode ⟨0b00000_00000_001101, 5, 6⟩ = .ok (.div 5 6) ∧
    decode ⟨0b00000_00000_001110, 5, 6⟩ = .ok (.rem 5 6) := by decide

theorem test_decode_precision_sqrt_fact :
    decode ⟨0b00000_10010_010000, 5, 6⟩ = .ok (.incf 18 5) ∧
    decode ⟨0b00000_00001_010001, 5, 6⟩ = .ok (.decf 1 5) ∧
    decode ⟨0b00000_00000_010100, 5, 6⟩ = .ok (.sqrt 5) ∧
    decode ⟨0b00000_00000_010101, 5, 6⟩ = .ok (.fact 5) := by decide

theorem test_decode_trig :
    decode ⟨0b00000_00000_011000, 5, 6⟩ = .ok (.norm 5) ∧
    decode ⟨0b00000_00000_011001, 5, 6⟩ = .ok (.sin 5) ∧
    decode ⟨0b00000_00000_011010, 5, 6⟩ = .ok (.cos 5) ∧
    decode ⟨0b00000_00000_011011, 5, 6⟩ = .ok (.tan 5) ∧
    decode ⟨0b00000_00000_011100, 5, 6⟩ = .ok (.cot 5) := by decide

theorem test_decode_hyperbolic :
    decode ⟨0b00000_00000_100000, 5, 6⟩ = .ok (.sinh 5) ∧
    decode ⟨0b00000_00000_100001, 5, 6⟩ = .ok (.cosh 5) ∧
    decode ⟨0b00000_00000_100010, 5, 6⟩ = .ok (.tanh 5) ∧
    decode ⟨0b00000_00000_100011, 5, 6⟩ = .ok (.coth 5) := by decide

theorem test_decode_logarithm :
    decode ⟨0b00000_00000_101000, 5, 6⟩ = .ok (.ln 5) ∧
    decode ⟨0b00000_00000_101001, 5, 6⟩ = .ok (.asinh 5) ∧
    decode ⟨0b00000_00000_101010, 5, 6⟩ = .ok (.acosh 5) ∧
    decode ⟨0b00000_00000_101011, 5, 6⟩ = .ok (.atanh 5) ∧
    decode ⟨0b00000_00000_101100, 5, 6⟩ = .ok (.acoth 5) := by decide

/-- One word for each of the five checks of R65, and a word that fails two of them. -/
theorem test_decode_illegal :
    decode ⟨0b00001_00000_001000, 0, 0⟩ = .error .reservedBits ∧
    decode ⟨0b00000_00000_001111, 0, 0⟩ = .error .unassignedOpcode ∧
    decode ⟨0b00000_00001_001000, 0, 0⟩ = .error .immediateNotZero ∧
    decode ⟨0b00000_01001_000101, 0, 0⟩ = .error .constantIndex ∧
    decode ⟨0b00000_10011_010001, 0, 0⟩ = .error .targetScale ∧
    decode ⟨0b10000_00000_111111, 0, 0⟩ = .error .reservedBits := by decide

theorem test_decodeTableWord :
    decodeTableWord 16 0x0490 = some (.incf 18 0) ∧ decodeTableWord 16 0x000C = some (.mul 0 0) ∧
    decodeTableWord 16 0x0245 = none := by decide

/-- R241: reset; and the first step after it runs the word presented. -/
theorem test_withFetchWord :
    response (step (State.reset.withFetchWord 16 0x0085)) = some (3141593, 0) ∧
    response (step (State.reset.withFetchWord 16 0x000D)) = some (0, 2) := by decide

/-! ### One step of each command -/

theorem test_fromraw : answer 0x0000 (-9223372036854775808) 0 = some (-9223372036854775808, 0) := by decide

theorem test_fromint : answer 0x0001 9223372036855 0 = some (9223372036854775807, 0) := by decide
theorem test_fromint_second : answer 0x0001 (-1) 0 = some (-1000000, 0) := by decide

theorem test_fromflt : answer 0x0002 0xC002000000000000 0 = some (-2250000, 0) := by decide
theorem test_fromflt_second : answer 0x0002 0xFFF0000000000001 0 = some (7, 1) := by decide

theorem test_from2p : answer 0x0003 (-3) 5000000000000000000 = some (-2500000, 0) := by decide
theorem test_from2p_second : answer 0x0003 0 0xFFFFFFFFFFFFFFFF = some (1844674, 0) := by decide

theorem test_scale : answer 0x0004 9 9 = some (1000000, 0) := by decide

theorem test_const : answer 0x00C5 9 9 = some (6283185, 0) := by decide
theorem test_const_second : answer 0x0245 9 9 = some (7, 8) := by decide

theorem test_add : answer 0x0008 9223372036854775807 1 = some (-9223372036854775808, 0) := by decide
theorem test_add_second : answer 0x0008 1500000 2250000 = some (3750000, 0) := by decide

theorem test_sub : answer 0x0009 1000000 2500000 = some (-1500000, 0) := by decide
theorem test_sub_second : answer 0x0009 0 (-9223372036854775808) = some (-9223372036854775808, 0) := by decide

theorem test_neg : answer 0x000A 1500000 0 = some (-1500000, 0) := by decide
theorem test_neg_second : answer 0x000A (-9223372036854775808) 0 = some (-9223372036854775808, 0) := by decide

theorem test_abs : answer 0x000B (-1500000) 0 = some (1500000, 0) := by decide
theorem test_abs_second : answer 0x000B (-9223372036854775808) 0 = some (-9223372036854775808, 0) := by decide

theorem test_mul : answer 0x000C (-1) 500000 = some (-1, 0) := by decide
theorem test_mul_second : answer 0x000C 3037000500 3037000500 = some (-9223372036709, 0) := by decide

theorem test_div : answer 0x000D 1000000 (-3000000) = some (-333333, 0) := by decide
theorem test_div_second : answer 0x000D 10000000000000 1000000 = some (-8446744073710, 0) := by decide

theorem test_rem : answer 0x000E (-7500000) 2000000 = some (-1500000, 0) := by decide
theorem test_rem_second : answer 0x000E 5 0 = some (7, 2) := by decide

theorem test_incf : answer 0x0490 (-9223373) 0 = some (-9223372036854775808, 0) := by decide
theorem test_incf_second : answer 0x0150 1500000 0 = some (7, 7) := by decide

theorem test_decf : answer 0x0091 (-1235000) 0 = some (-124, 0) := by decide
theorem test_decf_second : answer 0x01D1 1500000 0 = some (7, 7) := by decide

theorem test_sqrt : answer 0x0014 9223372036854775807 0 = some (3037000499976, 0) := by decide
theorem test_sqrt_second : answer 0x0014 3000000 0 = some (1732051, 0) := by decide

theorem test_fact : answer 0x0015 16000000 0 = some (9223372036854775807, 0) := by decide
theorem test_fact_second : answer 0x0015 21000001 0 = some (7, 4) := by decide

theorem test_norm : answer 0x0018 3141594 0 = some (-3141591, 0) := by decide
theorem test_norm_second : answer 0x0018 9223372036854775807 0 = some (-2518673, 0) := by decide

theorem test_sin : answer 0x0019 (-1570797) 0 = some (-1000000, 0) := by decide
theorem test_sin_second : answer 0x0019 100000000 0 = some (-506366, 0) := by decide

theorem test_cos : answer 0x001A 1000000 0 = some (540302, 0) := by decide
theorem test_cos_second : answer 0x001A 1570797 0 = some (-1, 0) := by decide

theorem test_tan : answer 0x001B 1000000 0 = some (1557408, 0) := by decide
theorem test_tan_second : answer 0x001B (-450818546) 0 = some (7, 2) := by decide

theorem test_cot : answer 0x001C 1000000 0 = some (642093, 0) := by decide
theorem test_cot_second : answer 0x001C 0 0 = some (7, 2) := by decide

theorem test_sinh : answer 0x0020 (-1000000) 0 = some (-1175201, 0) := by decide
set_option maxRecDepth 4096 in
theorem test_sinh_second : answer 0x0020 6000000 0 = some (49436957, 0) := by decide

theorem test_cosh : answer 0x0021 1000000 0 = some (1543081, 0) := by decide
set_option maxRecDepth 4096 in
theorem test_cosh_second : answer 0x0021 10000000 0 = some (-14792892, 0) := by decide

theorem test_tanh : answer 0x0022 (-1000000) 0 = some (-761594, 0) := by decide
set_option maxRecDepth 4096 in
theorem test_tanh_second : answer 0x0022 5000000 0 = some (999909, 0) := by decide

theorem test_coth : answer 0x0023 500000 0 = some (2163953, 0) := by decide
theorem test_coth_second : answer 0x0023 0 0 = some (7, 2) := by decide

theorem test_ln : answer 0x0028 499999 0 = some (-693149, 0) := by decide
theorem test_ln_second : answer 0x0028 0 0 = some (7, 6) := by decide

theorem test_asinh : answer 0x0029 (-1000000) 0 = some (-881374, 0) := by decide
theorem test_asinh_second : answer 0x0029 30370005 0 = some (7, 3) := by decide

theorem test_acosh : answer 0x002A 2000000 0 = some (1316958, 0) := by decide
theorem test_acosh_second : answer 0x002A (-1000000) 0 = some (7, 6) := by decide

theorem test_atanh : answer 0x002B (-500000) 0 = some (-549306, 0) := by decide
theorem test_atanh_second : answer 0x002B 1000000 0 = some (7, 2) := by decide

theorem test_acoth : answer 0x002C 1500000 0 = some (804719, 0) := by decide
theorem test_acoth_second : answer 0x002C (-1000000) 0 = some (7, 6) := by decide

/-! ### The handshake -/

/-- R240: reset wins over a command presented in the same step. -/
theorem test_reset_wins :
    nextOf (step { State.reset with y := 7, err := 2, ticks := [⟨true, true, ⟨0x0004, 0, 0⟩, true⟩] }) =
      some State.reset := by decide

/-- R33: a command presented while the block is busy is not executed; the one in flight completes. -/
theorem test_busy_ignores :
    response (step (busyWith ⟨0x0004, 0, 0⟩ [present ⟨0x0005, 0, 0⟩])) = some (1000000, 0) := by decide

/-- R32, R33: an accepted command whose latency has not run out leaves the block busy. -/
theorem test_accept_is_busy :
    (match step { State.reset with ticks := [⟨false, true, ⟨0x0004, 0, 0⟩, false⟩] } with
      | .next t => t.busy && !t.cmdReady && !t.rspValid
      | _ => false) = true := by decide

/-! ### The host's side -/

/-- R70: one line of each format, a comment, and texts that are no line. -/
theorem test_parse :
    parseLine "SCALE".toList = some [⟨none, .SCALE, 0, none, none⟩] ∧
    parseLine "CONST #PI".toList = some [⟨none, .CONST, 2, none, none⟩] ∧
    parseLine "%v = NEG 0xFf ; text".toList = some [⟨some "v", .NEG, 0, some (.hex 255), none⟩] ∧
    parseLine "INCF #18, -5".toList = some [⟨none, .INCF, 18, some (.dec (-5)), none⟩] ∧
    parseLine "FROM2P 0, 18446744073709551615".toList =
      some [⟨none, .FROM2P, 0, some (.dec 0), some (.dec 18446744073709551615)⟩] ∧
    parseLine "; text".toList = some [] ∧ parseLine "ADD 1 2".toList = none ∧
    parseLine "NEG 9223372036854775808".toList = none ∧ parseLine "NORM #1, 2".toList = none := by decide

/-- R71, R72: the text of a program, its lines run in order; `%y` is the content of `Y`. -/
theorem test_program :
    ((parseProgram ["%x = FROMINT 3".toList, "MULA %x, %y".toList, "%t = TAU".toList]).bind fun ls =>
      (runLines ls [] State.reset).map fun r => (r.1.lookup "x", r.1.lookup "t", r.2.err)) =
      some (some 9000000, some 6283185, 0) := by decide

/-- R72: a compound assignment that ends in an error keeps the variable. -/
theorem test_compound_error :
    ((runLines [(Pseudo.compound .DIVA "x" (.hex 0)).expand] [("x", 5)] State.reset).map
      fun r => (r.1.lookup "x", r.2.err)) = some (some 5, 2) := by decide

/-! ### Witnesses -/

theorem witness_DecodeEncodeRoundTrip :
    (Instr.incf 18 5).wellFormed = true ∧ (Instr.const 0).wellFormed = true ∧
      Instr.scale.wellFormed = true := by decide

theorem witness_EncodeDecodedCommand :
    decode ⟨0x0003, 5, 6⟩ = .ok (.from2p 5 6) ∧ (Instr.from2p 5 6).parts.1.format.usesA = true ∧
      (Instr.from2p 5 6).parts.1.format.usesB = true := by decide

theorem witness_UnusedOperandsIgnored :
    decode ⟨0x000A, 5, 6⟩ = .ok (.neg 5) ∧ (Instr.neg 5).parts.1.format.usesB = false ∧
    decode ⟨0x0205, 5, 6⟩ = .ok (.const 8) ∧ (Instr.const 8).parts.1.format.usesA = false := by decide

/-- Both ways in which a command is in flight: from before, and accepted in this step. -/
theorem witness_StepRunsDecodedCommand :
    decode ⟨0x0008, 1, 2⟩ = .ok (.add 1 2) ∧
    (blockOf exampleInstance ⟨0x0008, 1, 2⟩).ticks = [present ⟨0x0008, 1, 2⟩] ∧
    (blockOf exampleInstance ⟨0x0008, 1, 2⟩).inFlight = none ∧
    (busyWith ⟨0x0008, 1, 2⟩ [Tick.quiet]).ticks = [Tick.quiet] ∧
    (busyWith ⟨0x0008, 1, 2⟩ [Tick.quiet]).inFlight = some ⟨0x0008, 1, 2⟩ ∧ Tick.quiet.rst = false ∧ Tick.quiet.elapsed = true := by decide

theorem witness_StepRunsTableWord : decodeTableWord 16 0x0019 = some (.sin 0) := by decide

theorem witness_IllegalCommandSetsCode8 :
    (blockOf exampleInstance ⟨0xFFFF, 1, 2⟩).ticks = [present ⟨0xFFFF, 1, 2⟩] ∧
    (blockOf exampleInstance ⟨0xFFFF, 1, 2⟩).inFlight = none ∧
    decode (present ⟨0xFFFF, 1, 2⟩).command = .error .reservedBits := by decide

theorem witness_StepKeepsInv :
    BlockInv { State.reset with err := 8 } ∧
      step { State.reset with err := 8 } = .next { State.reset with err := 8 } :=
  ⟨by unfold BlockInv; decide, rfl⟩

theorem witness_ResetAbandonsCommand :
    (busyWith ⟨0x0019, 1, 0⟩ [⟨true, true, ⟨0x0004, 0, 0⟩, true⟩]).ticks =
      [⟨true, true, ⟨0x0004, 0, 0⟩, true⟩] := by decide

theorem witness_BusyIgnoresCommandPort :
    (busyWith ⟨0x0019, 1, 0⟩ []).busy = true := by decide

theorem witness_IdleKeepsRegisters :
    State.reset.inFlight = none ∧ State.reset.tick.rst = false ∧
      State.reset.tick.cmdValid = false := by decide

theorem witness_BusyKeepsPreviousResponse :
    (busyWith ⟨0x0019, 1, 0⟩ [⟨false, false, ⟨0, 0, 0⟩, false⟩]).inFlight = some ⟨0x0019, 1, 0⟩ ∧
    { State.reset with ticks := [⟨false, true, ⟨0x0019, 1, 0⟩, false⟩] }.inFlight = none ∧
    { State.reset with ticks := [⟨false, true, ⟨0x0019, 1, 0⟩, false⟩] }.tick.cmdValid = true := by
  decide

/-- A command in flight, one step of waiting, then completion. -/
theorem witness_CommandInFlightCompletes :
    (busyWith ⟨0x0004, 0, 0⟩ [⟨false, false, ⟨0, 0, 0⟩, false⟩, Tick.quiet]).ticks =
        [⟨false, false, ⟨0, 0, 0⟩, false⟩] ++ Tick.quiet :: [] ∧
    (∀ u ∈ [(⟨false, false, ⟨0, 0, 0⟩, false⟩ : Tick)], u.rst = false ∧ u.elapsed = false) ∧
    Tick.quiet.rst = false ∧ Tick.quiet.elapsed = true := by decide

theorem witness_HandshakeRefinesAtomicView :
    (blockOf exampleInstance ⟨0x0004, 0, 0⟩).ticks = [present ⟨0x0004, 0, 0⟩] ++ [] := by decide

theorem witness_ErrorCodesPerCommand :
    (Instr.incf 5 1500000).wellFormed = true ∧
      exec (.incf 5 1500000) State.reset = .next (State.reset.failedWith 7) :=
  ⟨by decide, eq_of_nextOf (by decide)⟩

/-- A NaN, an infinity, the smallest subnormal and a normal value, each in its own clause. -/
theorem witness_FromfltRoundsOnce :
    ((0xFFF0000000000001 : Word).toNat / 2 ^ 52 % 2048 = 2047 ∧
      (0xFFF0000000000001 : Word).toNat % 2 ^ 52 ≠ 0) ∧
    ((0xFFF0000000000000 : Word).toNat / 2 ^ 52 % 2048 = 2047 ∧
      (0xFFF0000000000000 : Word).toNat % 2 ^ 52 = 0) ∧
    (0x0000000000000001 : Word).toNat / 2 ^ 52 % 2048 ≠ 2047 ∧
    (0x7FEFFFFFFFFFFFFF : Word).toNat / 2 ^ 52 % 2048 = 2046 := by decide

theorem witness_ConstRoundsRomEntry :
    ((8 : BitVec 5), 0, 6931471805599453094) ∈
      [((2 : BitVec 5), 3, 1415926535897932384), (8, 0, 6931471805599453094)] ∧
    exec (.const 8) (idle 18 18) = .next ((idle 18 18).answered 693147180559945309) :=
  ⟨by decide, eq_of_nextOf (by decide)⟩

theorem witness_MulIsWrappedProduct :
    (500000 : Word) = BitVec.ofNat 64 (10 ^ State.reset.inst.F / 2) ∧
    (3 : Word) = -1 * -3 ∧ (3 : Word).msb = false ∧ (-3 : Word).msb = true := by decide

/-- The largest operand of V0 with `x * one = x`. -/
theorem witness_MulIsExactInRange :
    |(9223372036854 : Word).toInt * (1000000 : Word).toInt| + 10 ^ State.reset.inst.F / 2 ≤ max64 := by
  decide

theorem witness_DivIsWrappedQuotient :
    (3000000000000 : Word) = 3000000 * BitVec.ofNat 64 (10 ^ State.reset.inst.F) ∧
      (1 : Word) = (2 : Word).sdiv 2 ∧ (2 : Word) ≠ 0 := by decide

theorem witness_DivIsExactInRange :
    (-3000000 : Word) ≠ 0 ∧
      |(1000000 : Word).toInt| * 10 ^ State.reset.inst.F + |(-3000000 : Word).toInt| / 2 ≤ max64 := by
  decide

theorem witness_RemIsTruncated :
    (0 : Word) = 0 ∧ (-1 : Word) ≠ 0 ∧ answer 0x000E (-9223372036854775808) (-1) = some (0, 0) := by decide

/-- `F = 6`: scales 5, 6 and 18, the clauses and their ends. -/
theorem witness_IncfWidens :
    ((5 : BitVec 5).toNat ≤ 18 ∧ (5 : BitVec 5).toNat < State.reset.inst.F) ∧
    State.reset.inst.F ≤ (6 : BitVec 5).toNat ∧ State.reset.inst.F ≤ (18 : BitVec 5).toNat ∧
      (18 : BitVec 5).toNat ≤ 18 := by decide

/-- `F = 6`: scales 7, 6 and 0, the clauses and their ends. -/
theorem witness_DecfNarrows :
    ((7 : BitVec 5).toNat ≤ 18 ∧ State.reset.inst.F < (7 : BitVec 5).toNat) ∧
    (6 : BitVec 5).toNat ≤ State.reset.inst.F ∧ (0 : BitVec 5).toNat ≤ State.reset.inst.F := by decide

theorem witness_SqrtIsNearest :
    ((-1 : Word).toInt < 0 ∧ answer 0x0014 (-1) 0 = some (7, 3)) ∧
    (0 ≤ (0 : Word).toInt ∧ answer 0x0014 0 0 = some (0, 0)) := by decide

theorem witness_NewtonFindsFloorRoot :
    (1 : Nat) < 2 ^ 123 ∧ isqrt 1 = 1 ∧ (1 : Nat) ≤ 2 ^ 123 - 1 ∧ (2 : Nat) ^ 123 - 1 < 2 ^ 123 := by decide

/-- A negative, a non-integral operand, 20 and 21. -/
theorem witness_FactIsFactorial :
    (-1000000 : Word).toInt < 0 ∧ ¬ (10 : Int) ^ State.reset.inst.F ∣ (1500000 : Word).toInt ∧
    (20000000 : Word).toInt = (20 : Nat) * 10 ^ State.reset.inst.F ∧
    (21000000 : Word).toInt = (21 : Nat) * 10 ^ State.reset.inst.F := by decide

theorem witness_FixedCountGivesSameSum : (18 : Nat) ≤ 18 ∧ Fits max64 := by unfold Fits; decide

theorem witness_SeriesAreTermSums :
    (18 : Nat) ≤ 18 ∧ Fits min64 ∧ maxIter 6 = 16 ∧ maxIter 7 = 24 ∧ maxIter 12 = 24 ∧ maxIter 13 = 40 := by
  unfold Fits; decide

theorem witness_NormReducesAngle :
    |(3141593 : Word).toInt| ≤ constWord State.reset.inst.F 2 ∧
      ¬ |(3141594 : Word).toInt| ≤ constWord State.reset.inst.F 2 := by decide

/-- A zero and a non-zero divisor for both commands (V0: `TAN -450818546`). -/
theorem witness_TanCotDivide :
    cosTf 8 (State.reset.widened (-450818546)) = 0 ∧ cosTf 8 (State.reset.widened 0) ≠ 0 ∧
    sinTf 8 (State.reset.widened 0) = 0 ∧ sinTf 8 (State.reset.widened 1) ≠ 0 := by decide

theorem witness_SinIsOdd :
    (State.reset.inst.TF ≤ 9 ∧ (1570797 : Word).toInt ≠ min64 ∧ State.reset.WidensExactly 1570797) ∧
    exec (.sin 1570797) State.reset = .next (State.reset.answered 1000000) ∧
    exec (.sin (-1570797)) State.reset = .next (State.reset.answered (-1000000)) :=
  ⟨by unfold State.WidensExactly Fits; decide, eq_of_nextOf (by decide), eq_of_nextOf (by decide)⟩

/-- At `F = TF = 0` there is an operand whose hyperbolic cosine word is 0: its square wraps to -39. -/
theorem witness_TanhCothDivide :
    coshTf 0 ((idle 0 0).widened 7197414678358359141) = 0 ∧ coshTf 8 (State.reset.widened 0) ≠ 0 ∧
    sinhTf 8 (State.reset.widened 0) = 0 ∧ sinhTf 8 (State.reset.widened 1) ≠ 0 := by decide

theorem witness_CoshIsEven :
    (1000000 : Word).toInt ≠ min64 ∧ State.reset.WidensExactly 1000000 := by
  unfold State.WidensExactly Fits; decide

/-- The two ends of the bounds, 62 halvings and 59 doublings, and no pass at all. -/
theorem witness_LnRangeReduction :
    (0 < max64 ∧ max64 ≤ max64 ∧ reduceLn 0 max64 = (max64 / 2 ^ 62, 62)) ∧
    ((1 : Int) ≤ max64 ∧ reduceLn 18 1 = (2 ^ 59, -59)) ∧ reduceLn 8 100000000 = (100000000, 0) := by decide

/-- Each clause; R191's trace of `ln_tf(200000000)` at `TF = 8` gives the quotient 33333333. -/
theorem witness_LnCompletes :
    (0 : Word).toInt ≤ 0 ∧ 0 < (1 : Word).toInt ∧ (1000000 : Word).toInt = 10 ^ State.reset.inst.F ∧
    reduceLn 8 200000000 = (200000000, 0) ∧
    (fxDiv 8 (200000000 - 10 ^ 8) (200000000 + 10 ^ 8)).toOption = some 33333333 := by decide

/-- The three clauses of the reflection, at their ends (V0: the sine of both roundings of pi/2). -/
theorem witness_SinCosComplete :
    |State.reset.widened 0| ≤ constWord 8 2 ∧ |(157079632 : Int)| ≤ halfPi 8 ∧
    halfPi 8 < 157079633 ∧ (-157079633 : Int) < -halfPi 8 ∧
    sinTf 8 157079633 = sinSeries 8 (constWord 8 2 - 157079633) := by decide

/-- The radicands of R193 for the example instance. -/
def radicands (a : Word) : Int × Int :=
  (fxAdd (fxMul 8 (State.reset.widened a) (State.reset.widened a)) (10 ^ 8),
    fxSub (fxMul 8 (State.reset.widened a) (State.reset.widened a)) (10 ^ 8))

/-- A negative radicand, a sum that is not positive and a completion, for both commands. -/
theorem witness_AsinhAcoshOutcomes :
    ((radicands 30370005).1 < 0 ∧ answer 0x0029 30370005 0 = some (7, 3)) ∧
    (0 ≤ (radicands (-100000000)).1 ∧ answer 0x0029 (-100000000) 0 = some (7, 6)) ∧
    (0 ≤ (radicands 0).1 ∧ answer 0x0029 0 0 = some (0, 0)) ∧
    ((radicands 999999).2 < 0 ∧ answer 0x002A 999999 0 = some (7, 3)) ∧
    (0 ≤ (radicands (-1000000)).2 ∧ answer 0x002A (-1000000) 0 = some (7, 6)) ∧
    (0 ≤ (radicands 1000000).2 ∧ answer 0x002A 1000000 0 = some (0, 0)) := by decide

/-- A zero divisor, a quotient that is not positive and a completion, for both commands. -/
theorem witness_AtanhAcothOutcomes :
    (fxSub (10 ^ 8) (State.reset.widened 1000000) = 0 ∧ answer 0x002B 1000000 0 = some (7, 2)) ∧
    (fxSub (10 ^ 8) (State.reset.widened (-1000000)) ≠ 0 ∧ answer 0x002B (-1000000) 0 = some (7, 6)) ∧
    (fxSub (10 ^ 8) (State.reset.widened 0) ≠ 0 ∧ answer 0x002B 0 0 = some (0, 0)) ∧
    (fxSub (State.reset.widened 1000000) (10 ^ 8) = 0 ∧ answer 0x002C 1000000 0 = some (7, 2)) ∧
    (fxSub (State.reset.widened 500000) (10 ^ 8) ≠ 0 ∧ answer 0x002C 500000 0 = some (7, 6)) ∧
    (fxSub (State.reset.widened 2000000) (10 ^ 8) ≠ 0 ∧ answer 0x002C 2000000 0 = some (549306, 0)) := by
  decide

theorem witness_InverseDomainEdges :
    State.reset.inst.TF ≤ 9 ∧ |(999999 : Word).toInt| < 10 ^ State.reset.inst.F ∧
    (1000000 : Word).toInt = 10 ^ State.reset.inst.F := by decide

theorem witness_IllegalInstanceRefused :
    Instance.build 19 19 = none ∧ Instance.build 8 6 = none ∧
      Instance.build 6 8 = some exampleInstance ∧ (Instance.build 18 18).isSome ∧
      (Instance.build 0 0).isSome := by decide

/-- A ready block that has just completed a command. -/
theorem witness_CompoundAssignmentAlias :
    (Compound.DIVA, (0x000D : CmdWord), Instr.div 5 0) ∈
      [(Compound.MULA, 0x000C, Instr.mul 5 0), (.DIVA, 0x000D, .div 5 0)] ∧
    (State.reset.answered 0).inFlight = none ∧ (State.reset.answered 0).rspValid = true ∧
    List.lookup "x" [("x", (5 : Word))] = some 5 ∧
    (Machine.Operand.var "y").value [("x", 5)] (State.reset.answered 0).y = some 0 := by decide

end Sys2Proof.Tests
end

section
/-! PROOFS about 00_scope.md: the integer operations of R5 to R8, the idle step of R12 and the instance
parameters of R4. -/

namespace Sys2Proof.Machine

/-! ### Rounded division (R8) -/

/-- Nearness is symmetric about zero, as the ties go away from it. -/
theorem isNearest_neg_iff {q n d : Int} : IsNearest (-q) (-n) d ↔ IsNearest q n d := by
  have h : -q * d - -n = -(q * d - n) := by ring
  simp only [IsNearest, h, abs_neg]

/-- On a dividend that is not negative, rounding is the floor of the quotient and a half. -/
theorem rha_of_nonneg {n d : Int} (hn : 0 ≤ n) (hd : 0 < d) : rha n d = (2 * n + d) / (2 * d) := by
  rcases hn.eq_or_lt with rfl | hpos
  · rw [rha_zero, mul_zero, zero_add, Int.ediv_eq_zero_of_lt hd.le (by omega)]
  · rw [rha, Int.sign_eq_one_of_pos hpos, Int.natAbs_of_nonneg hn, one_mul]

/-- The floor of the quotient and a half is nearest; a tie is rounded up, which is away from zero. -/
theorem isNearest_of_nonneg {n d : Int} (hn : 0 ≤ n) (hd : 0 < d) :
    IsNearest ((2 * n + d) / (2 * d)) n d := by
  have hdiv := Int.mul_ediv_add_emod (2 * n + d) (2 * d)
  have hlow := Int.emod_nonneg (2 * n + d) (show 2 * d ≠ 0 by omega)
  have hhigh := Int.emod_lt_of_pos (2 * n + d) (show 0 < 2 * d by omega)
  have hq : 0 ≤ (2 * n + d) / (2 * d) := Int.ediv_nonneg (by omega) (by omega)
  generalize (2 * n + d) / (2 * d) = q at *
  have hmul : 2 * d * q = 2 * (q * d) := by ring
  rw [IsNearest, abs_of_nonneg hq, abs_of_nonneg hn]
  rcases abs_cases (q * d - n) with ⟨habs, _⟩ | ⟨habs, _⟩ <;> rw [habs] <;> constructor <;> omega

theorem isNearest_rha (n : Int) {d : Int} (hd : 0 < d) : IsNearest (rha n d) n d := by
  rcases le_total 0 n with hn | hn
  · rw [rha_of_nonneg hn hd]
    exact isNearest_of_nonneg hn hd
  · rw [← isNearest_neg_iff, ← rha_neg, rha_of_nonneg (by omega) hd]
    exact isNearest_of_nonneg (by omega) hd

/-- R8's recipe for an even divisor, on a dividend that is not negative. -/
theorem rha_even_of_nonneg {n d : Int} (hn : 0 ≤ n) (hd : 0 < d) (heven : d % 2 = 0) :
    rha n d = tdiv (n + n.sign * (d / 2)) d := by
  rcases hn.eq_or_lt with rfl | hpos
  · simp
  · have hdouble : 2 * n + d = 2 * (n + d / 2) := by omega
    rw [rha_of_nonneg hn hd, hdouble, Int.mul_ediv_mul_of_pos _ _ (by norm_num),
      Int.sign_eq_one_of_pos hpos, one_mul, tdiv, Int.tdiv_eq_ediv_of_nonneg (by omega)]

theorem tdiv_neg_left (n d : Int) : tdiv (-n) d = -tdiv n d := Int.neg_tdiv n d

/-- R8's recipe for an even divisor: add half of it, with the sign of the dividend, and truncate. -/
theorem rha_even (n : Int) {d : Int} (hd : 0 < d) (heven : d % 2 = 0) :
    rha n d = tdiv (n + n.sign * (d / 2)) d := by
  rcases le_total 0 n with hn | hn
  · exact rha_even_of_nonneg hn hd heven
  · have hneg : -n + (-n).sign * (d / 2) = -(n + n.sign * (d / 2)) := by rw [Int.sign_neg]; ring
    have h := rha_even_of_nonneg (n := -n) (by omega) hd heven
    rw [rha_neg, hneg, tdiv_neg_left] at h
    exact neg_injective h

/-! ### The truncating quotient and its remainder (R7) -/

theorem tdiv_eq_sign_mul (n d : Int) :
    tdiv n d = n.sign * d.sign * ((n.natAbs / d.natAbs : Nat) : Int) := by
  have habs : (tdiv n d).natAbs = n.natAbs / d.natAbs := Int.natAbs_tdiv n d
  rw [← Int.sign_mul_natAbs (tdiv n d), habs, tdiv, Int.sign_tdiv]
  split
  next hlt => simp [Nat.div_eq_of_lt hlt]
  next => rfl

theorem trem_eq_tmod (n d : Int) : trem n d = n.tmod d := (Int.tmod_def n d).symm

theorem abs_trem_lt (n : Int) {d : Int} (hd : d ≠ 0) : |trem n d| < |d| := by
  rw [trem_eq_tmod, Int.abs_eq_natAbs, Int.abs_eq_natAbs, Int.natAbs_tmod]
  exact_mod_cast Nat.mod_lt _ (Int.natAbs_pos.mpr hd)

theorem trem_eq_zero_or_sign (n d : Int) : trem n d = 0 ∨ (trem n d).sign = n.sign := by
  rw [trem_eq_tmod]
  by_cases h : d ∣ n
  · exact .inl (Int.tmod_eq_zero_of_dvd h)
  · exact .inr (by rw [Int.sign_tmod, if_neg h])

/-! ### The signed range (R5, R6) -/

/-- `wrap64 z` is the one word congruent to `z`. -/
theorem wrap64_eq_iff {z w : Int} : wrap64 z = w ↔ Fits w ∧ (w - z) % 2 ^ 64 = 0 := by
  rw [wrap64, Int.bmod_eq_iff (by norm_num), ← Int.dvd_iff_emod_eq_zero, fits_iff]
  norm_num
  omega

/-- `sat64` clamps, in the three cases of R6. -/
theorem sat64_eq_max_min (z : Int) : sat64 z = max min64 (min max64 z) := by
  have hrange : min64 ≤ max64 := by decide
  unfold sat64
  split
  next habove => rw [min_eq_left habove.le, max_eq_right hrange]
  next hle =>
    rw [min_eq_right (not_lt.mp hle)]
    split
    next hbelow => rw [max_eq_left hbelow.le]
    next hge => rw [max_eq_right (not_lt.mp hge)]

/-! ### The idle step (R12) -/

/-- With no command in flight after acceptance, and no reset, a step only waits. -/
theorem step_of_taken_none {s : State} (hr : s.tick.rst = false) (ht : s.taken = none) :
    step s = .next (s.advance.accept s.tick) := by
  rcases step_cases s with ⟨h, -⟩ | ⟨-, -, h⟩ | ⟨c, -, h, -⟩ | ⟨c, -, h, -⟩
  · simp [hr] at h
  · exact h
  · simp [ht] at h
  · simp [ht] at h

/-! ### The instance parameters (R4, R243) -/

theorem build_eq_none_iff (F TF : Nat) :
    Instance.build F TF = none ↔ (18 < F ∨ 18 < TF ∨ TF < F) := by
  unfold Instance.build
  split
  next hlegal => simp; omega
  next hillegal => simp; omega

theorem params_of_build {F TF : Nat} {p : Instance} (h : Instance.build F TF = some p) :
    p.F = F ∧ p.TF = TF := by
  unfold Instance.build at h
  split at h
  · cases h
    exact ⟨rfl, rfl⟩
  · cases h

/-- No step writes the instance parameters: neither a reset, nor waiting, nor a command, legal or not. -/
theorem step_inst {s t : State} (h : step s = .next t) : t.inst = s.inst := by
  rcases step_cases s with ⟨-, hs⟩ | ⟨-, -, hs⟩ | ⟨c, -, -, -, hs⟩ | ⟨c, -, -, -, hs⟩ <;> rw [hs] at h
  case inr.inr.inr =>
    obtain ⟨-, hinst, -⟩ := runCommand_respond _ c t h
    simpa using hinst
  all_goals
    cases h
    simp

end Sys2Proof.Machine

/-! ### The obligations of 00_scope.md -/

section
open Sys2Proof Sys2Proof.Machine

/-- Settles O25: nearness and R8's recipe from the case of a dividend that is not negative, by oddness. -/
theorem roundHalfAway : Obligations.RoundHalfAway := by
  refine ⟨fun n d hd => ⟨isNearest_rha n hd, ?closedForm, rha_even n hd⟩, by decide⟩
  case closedForm => rw [rha, Int.abs_eq_natAbs]

/-- Settles O15: nothing is accepted, so the step is only the ports moving on. -/
theorem idleKeepsRegisters : Obligations.IdleKeepsRegisters := by
  intro s hidle hr hv
  have htaken : s.taken = none := by rw [taken_of_idle hidle, hv]; rfl
  rw [step_of_taken_none hr htaken, State.accept_of_idle _ _ (by simpa using hidle) hv]
  rfl

/-- Settles O22. -/
theorem wrapIsTheResidue : Obligations.WrapIsTheResidue := by
  intro z w
  rw [eq_comm, wrap64_eq_iff, Fits, and_assoc]

/-- Settles O23. -/
theorem satClamps : Obligations.SatClamps := sat64_eq_max_min

/-- Settles O24: the quotient by signs and magnitudes, the remainder as the library's `Int.tmod`. -/
theorem truncatingDivision : Obligations.TruncatingDivision :=
  ⟨fun n d hd => ⟨tdiv_eq_sign_mul n d, rfl, abs_trem_lt n hd, trem_eq_zero_or_sign n d⟩, by decide⟩

/-- Settles O59: what `Instance.build` answers, and the step by its cases. -/
theorem illegalInstanceRefused : Obligations.IllegalInstanceRefused :=
  ⟨build_eq_none_iff, fun _ _ _ => params_of_build, fun _ _ => step_inst⟩

end
end

section
/-! PROOFS about 10_state.md: one step of the handshake (R33), the reset values (R31), the outcome of a command
(R30) and the refinement of the atomic view. -/

namespace Sys2Proof.Machine

/-! ### Acceptance (R33) -/

/-- Acceptance as the handshake says it: the command presented if none is in flight, else the one there is. -/
theorem taken_eq (s : State) :
    s.taken = if s.inFlight.isNone && s.tick.cmdValid then some s.tick.command else s.inFlight := by
  cases hf : s.inFlight with
  | none => simp [taken_of_idle hf]
  | some c => simp [taken_of_busy hf]

/-- The two ways in which a command comes to be in flight in a step. -/
theorem taken_of_busy_or_presented {s : State} {c : Command}
    (h : s.inFlight = some c ∨ (s.inFlight = none ∧ s.tick.cmdValid = true ∧ s.tick.command = c)) :
    s.taken = some c := by
  rcases h with hbusy | ⟨hidle, hvalid, rfl⟩
  · exact taken_of_busy hbusy
  · rw [taken_of_idle hidle, if_pos hvalid]

/-- Acceptance writes nothing but the command in flight. -/
theorem accept_eq (t : Tick) (s : State) : s.accept t = { s with inFlight := (s.accept t).inFlight } := by
  rw [State.mk.injEq]
  simp

/-- The state in which a step works on the command taken, `ts` being the driving of the ports still to come. -/
def State.holding (s : State) (c : Command) (ts : List Tick) : State :=
  { s with ticks := ts, rspValid := false, inFlight := some c }

theorem accept_of_taken {s : State} {c : Command} (h : s.taken = some c) :
    s.advance.accept s.tick = s.holding c s.ticks.tail := by
  rw [accept_eq, ← State.taken, h]
  rfl

/-! ### The step with a command taken (R33, R240) -/

theorem step_of_rst {s : State} (hr : s.tick.rst = true) : step s = .next s.advance.applyReset := by
  rw [step, if_pos hr]

/-- Without reset, a step with a command taken runs it if its latency has run out, and else holds it. -/
theorem step_of_taken {s : State} {c : Command} (hr : s.tick.rst = false) (ht : s.taken = some c) :
    step s = if s.tick.elapsed then runCommand c (s.holding c s.ticks.tail)
      else .next (s.holding c s.ticks.tail) := by
  rw [step, hr, if_neg Bool.false_ne_true, accept_of_taken ht]
  rfl

/-- With a command in flight, a step reads only `rst` and `elapsed` of the driving of the ports. -/
theorem step_of_busy {s : State} {c : Command} (hc : s.inFlight = some c) (t : Tick) (ts : List Tick) :
    step { s with ticks := t :: ts } =
      if t.rst then .next (State.resetOf s.inst ts)
      else if t.elapsed then runCommand c (s.holding c ts) else .next (s.holding c ts) := by
  cases hr : t.rst with
  | true => exact step_of_rst hr
  | false => exact step_of_taken hr (taken_of_busy hc)

theorem decode_of_decodeTableWord {nbits w : Nat} {i : Instr} (h : decodeTableWord nbits w = some i) :
    decode (tableCommand nbits w) = .ok i := by
  unfold decodeTableWord at h
  split at h
  next hd => rw [hd, Option.some.inj h]
  next => cases h

/-! ### Reset and the outcome of a command (R30, R31) -/

theorem blockInv_resetOf (p : Instance) (ts : List Tick) : BlockInv (State.resetOf p ts) := by
  simp [BlockInv]

/-- What a command delivers: the word for `Y`, or the code for `ERR`. -/
def responseOf (p : Instance) (i : Instr) : Except (BitVec 4) Word :=
  match resultOf p i with
  | .ok v => .ok (BitVec.ofInt 64 v)
  | .error e => .error e.code

theorem responseOf_of_ok {p : Instance} {i : Instr} {v : Int} (h : resultOf p i = .ok v) :
    responseOf p i = .ok (BitVec.ofInt 64 v) := by rw [responseOf, h]

theorem responseOf_of_error {p : Instance} {i : Instr} {e : ErrorCondition} (h : resultOf p i = .error e) :
    responseOf p i = .error e.code := by rw [responseOf, h]

/-! ### One step and its event -/

theorem exists_runCommand (c : Command) (s : State) : ∃ u, runCommand c s = .next u := by
  rcases runCommand_cases c s.inst with ⟨w, h⟩ | ⟨e, h⟩
  · exact ⟨_, h s rfl⟩
  · exact ⟨_, h s rfl⟩

theorem handshake_of_rst {t : Tick} (hr : t.rst = true) (busy : Option Command) (ts : List Tick) :
    handshake busy (t :: ts) = (.reset :: (handshake none ts).1, (handshake none ts).2) := by
  simp [handshake, hr]

theorem handshake_of_taken_none {s : State} (hr : s.tick.rst = false) (ht : s.taken = none)
    (ts : List Tick) :
    handshake s.inFlight (s.tick :: ts) = (.quiet :: (handshake none ts).1, (handshake none ts).2) := by
  rw [taken_eq] at ht
  simp only [handshake, hr, ht, Bool.false_eq_true, if_false]

theorem handshake_of_taken {s : State} {c : Command} (hr : s.tick.rst = false) (ht : s.taken = some c)
    (ts : List Tick) :
    handshake s.inFlight (s.tick :: ts) =
      if s.tick.elapsed then (.done c :: (handshake none ts).1, (handshake none ts).2)
      else (.quiet :: (handshake (some c) ts).1, (handshake (some c) ts).2) := by
  rw [taken_eq] at ht
  simp only [handshake, hr, ht, Bool.false_eq_true, if_false]

/-- The commuting square of the refinement: `s` steps to `u`, the handshake sees the event `e` in that step and
goes on with what `u` has in flight, and the response registers of `u` are what `e` makes of those of `s`. -/
structure StepsWith (s : State) (e : Event) (u : State) : Prop where
  steps : step s = .next u
  response : (u.y, u.err) = applyEvent s.inst (s.y, s.err) e
  ticks : u.ticks = s.ticks.tail
  inst : u.inst = s.inst
  handshake_cons : ∀ ts, handshake s.inFlight (s.tick :: ts) =
    (e :: (handshake u.inFlight ts).1, (handshake u.inFlight ts).2)

/-- Every step is one event of the handshake. -/
theorem exists_stepsWith (s : State) : ∃ e u, StepsWith s e u := by
  rcases step_cases s with ⟨hr, hs⟩ | ⟨hr, ht, hs⟩ | ⟨c, hr, ht, hel, hs⟩ | ⟨c, hr, ht, hel, hs⟩
  case inl => exact ⟨.reset, _, hs, rfl, rfl, rfl, handshake_of_rst hr _⟩
  case inr.inl =>
    refine ⟨.quiet, _, hs, by simp [applyEvent], by simp, by simp, ?_⟩
    rw [← State.taken, ht]
    exact handshake_of_taken_none hr ht
  case inr.inr.inl =>
    rw [accept_of_taken ht] at hs
    exact ⟨.quiet, _, hs, rfl, rfl, rfl, fun ts => by rw [handshake_of_taken hr ht, hel]; rfl⟩
  case inr.inr.inr =>
    rw [accept_of_taken ht] at hs
    obtain ⟨u, hu⟩ := exists_runCommand c (s.holding c s.ticks.tail)
    obtain ⟨hresp, hinst, hticks, hidle, -⟩ := runCommand_respond _ _ _ hu
    refine ⟨.done c, u, hs.trans hu, hresp, hticks, hinst, fun ts => ?_⟩
    rw [handshake_of_taken hr ht, if_pos hel, hidle]

end Sys2Proof.Machine

/-! ### The obligations of 10_state.md -/

section
open Sys2Proof Sys2Proof.Machine

/-- Settles O18: induction on the driving of the ports, one square (`StepsWith`) a step. -/
theorem handshakeRefinesAtomicView : Obligations.HandshakeRefinesAtomicView := by
  intro s ts rest hts
  induction ts generalizing s with
  | nil => exact ⟨s, rfl, rfl, rfl, hts, rfl⟩
  | cons t ts ih =>
    obtain ⟨e, v, hv⟩ := exists_stepsWith s
    obtain ⟨u, hrun, hresp, hflight, hrest, hinst⟩ := ih v (by rw [hv.ticks, hts]; rfl)
    have hcons := hv.handshake_cons ts
    rw [State.tick_of_cons s t (ts ++ rest) hts] at hcons
    rw [hv.response, hv.inst] at hresp
    refine ⟨u, (run_succ Sys2Proof.core ts.length s v hv.steps).trans hrun, ?response, ?inFlight, hrest,
      hinst.trans hv.inst⟩
    case response => rw [hcons, hresp, List.foldl_cons]
    case inFlight => rw [hcons, hflight]

/-- Settles O19: the response is `responseOf`, which reads neither `Y` nor `ERR`. -/
theorem outcomeDependsOnCommandOnly : Obligations.OutcomeDependsOnCommandOnly := by
  refine ⟨responseOf, fun i s => ?_⟩
  rcases exec_cases i s with ⟨v, hv, hexec⟩ | ⟨e, he, hexec⟩
  · rw [hexec, responseOf_of_ok hv]
  · rw [hexec, responseOf_of_error he]

/-- Settles O6. -/
theorem stepRunsDecodedCommand : Obligations.StepRunsDecodedCommand := by
  intro s t ts c i hts hr hel hdec hfrom
  have htick := State.tick_of_cons s t ts hts
  subst htick
  rw [step_of_taken hr (taken_of_busy_or_presented hfrom), if_pos hel, runCommand_of_legal hdec,
    State.holding, hts]
  rfl

/-- Settles O7: the presented word is a command accepted by a ready block, so this is O6. -/
theorem stepRunsTableWord : Obligations.StepRunsTableWord := by
  intro s nbits w i hw
  exact stepRunsDecodedCommand (s.withFetchWord nbits w) (presentWord nbits w) s.ticks _ i rfl rfl rfl
    (decode_of_decodeTableWord hw) (.inr ⟨rfl, rfl, rfl⟩)

/-- Settles O11. -/
theorem resetHasInv : Obligations.ResetHasInv := ⟨blockInv_resetOf _ _, blockInv_resetOf⟩

/-- Settles O12: each value is a field of `State.resetOf`. -/
theorem resetValues : Obligations.ResetValues :=
  ⟨fun _ _ => ⟨rfl, rfl, rfl, rfl⟩, rfl, rfl, rfl, rfl⟩

/-- Settles O14: the step of a busy block (`step_of_busy`) does not mention the command port. -/
theorem busyIgnoresCommandPort : Obligations.BusyIgnoresCommandPort := by
  intro s ts r v v' e c c' hbusy
  obtain ⟨d, hd⟩ := Option.isSome_iff_exists.mp hbusy
  exact ⟨by simp [State.cmdReady, hd], by rw [step_of_busy hd, step_of_busy hd]⟩

/-- Settles O16. -/
theorem busyKeepsPreviousResponse : Obligations.BusyKeepsPreviousResponse := by
  intro s t ts c hts hr hel hfrom
  have htick := State.tick_of_cons s t ts hts
  subst htick
  rw [step_of_taken hr (taken_of_busy_or_presented hfrom), hel, State.holding, hts]
  rfl

end
end

section
/-! PROOFS about 30_encoding.md: what decodes to which instruction (R60 to R65), and the compound assignments
(R71, R72). -/

namespace Sys2Proof

/-! ### The immediates of a command (R63, R65) -/

/-- How many values of `imm5` make a legal word of the command: they are the ones below it (R65, checks 3 to
5). -/
def Mnemonic.immCount : Mnemonic → Nat
  | .CONST => 9
  | .INCF | .DECF => 19
  | _ => 1

theorem immCount_le (m : Mnemonic) : m.immCount ≤ 32 := by cases m <;> decide

/-- A format without immediate admits the immediate 0 only. -/
theorem eq_zero_of_lt_immCount {m : Mnemonic} {imm : BitVec 5} (h : imm.toNat < m.immCount)
    (hm : m.format.hasImm = false) : imm = 0 := by
  have hone : m.format.hasImm = false → m.immCount = 1 := by cases m <;> decide
  rw [hone hm, Nat.lt_one_iff] at h
  exact BitVec.eq_of_toNat_eq h

/-- The immediate passes the checks 3 to 5 of R65 exactly if it is below the command's count. -/
theorem lt_immCount_iff (m : Mnemonic) (imm : BitVec 5) :
    imm.toNat < m.immCount ↔
      ¬ (m.format.hasImm = false ∧ imm ≠ 0) ∧ ¬ (m = .CONST ∧ 8 < imm.toNat) ∧
      ¬ ((m = .INCF ∨ m = .DECF) ∧ 18 < imm.toNat) := by
  have hzero : imm.toNat = 0 ↔ imm = 0#5 := BitVec.toNat_inj (y := 0#5)
  cases m <;> simp [Mnemonic.immCount, Mnemonic.format, Format.hasImm, hzero, Nat.lt_succ_iff]

/-! ### Command words and their fields (R60) -/

/-- A word whose reserved bits are 0 is put together from its two other fields. -/
theorem commandWord_fields {w : CmdWord} (h : zeroField w = 0) :
    commandWord (opField w) (immField w) = w := by
  have hcat : zeroField w ++ immField w ++ opField w = w := by
    simp only [zeroField, immField, opField, BitVec.extractLsb'_append_extractLsb'_eq_extractLsb',
      BitVec.extractLsb'_eq_self]
  rw [h] at hcat
  exact hcat

theorem toNat_commandWord (op : BitVec 6) (imm : BitVec 5) :
    (commandWord op imm).toNat = op.toNat + 64 * imm.toNat := by
  have happ : (commandWord op imm).toNat = (0#5 ++ imm ++ op : BitVec (5 + 5 + 6)).toNat := rfl
  have himm : (0#5 ++ imm).toNat = imm.toNat := by
    rw [BitVec.toNat_append]
    simp
  rw [happ, BitVec.toNat_append, himm, ← Nat.shiftLeft_add_eq_or_of_lt op.isLt, Nat.shiftLeft_eq]
  omega

/-! ### An instruction and its parts (R61, R62) -/

theorem parts_instr (m : Mnemonic) (imm : BitVec 5) (a b : Word) :
    (m.instr imm a b).parts =
      (m, if m.format.hasImm then imm else 0, if m.format.usesA then a else 0,
        if m.format.usesB then b else 0) := by
  cases m <;> rfl

theorem instr_parts (i : Instr) :
    i.parts.1.instr i.parts.2.1 i.parts.2.2.1 i.parts.2.2.2 = i := by
  cases i <;> rfl

theorem parts_injective : Function.Injective Instr.parts := by
  intro i j h
  rw [← instr_parts i, h, instr_parts j]

/-- The words on the operand ports that the format does not read are dropped. -/
theorem instr_congr {m : Mnemonic} {imm : BitVec 5} {a a' b b' : Word}
    (ha : m.format.usesA = true → a = a') (hb : m.format.usesB = true → b = b') :
    m.instr imm a b = m.instr imm a' b' := by
  apply parts_injective
  rw [parts_instr, parts_instr, ite_congr rfl ha fun _ => rfl, ite_congr rfl hb fun _ => rfl]

theorem wellFormed_iff (i : Instr) : i.wellFormed = true ↔ i.parts.2.1.toNat < i.parts.1.immCount := by
  cases i <;> simp [Instr.wellFormed, Instr.parts, Mnemonic.immCount, Nat.lt_succ_iff]

/-! ### What decodes to what (R65) -/

theorem decode_eq_ok_iff_fields (c : Command) (i : Instr) :
    decode c = .ok i ↔ zeroField c.cmd = 0 ∧ ∃ m, mnemonicOf (opField c.cmd) = some m ∧
      (immField c.cmd).toNat < m.immCount ∧ m.instr (immField c.cmd) c.a c.b = i := by
  unfold decode
  by_cases hz : zeroField c.cmd = 0
  case neg =>
    rw [if_pos hz]
    exact iff_of_false nofun fun h => hz h.1
  rw [if_neg (not_not.mpr hz)]
  cases mnemonicOf (opField c.cmd) with
  | none => simp
  | some m =>
    simp only [hz, Option.some.injEq, exists_eq_left', true_and, lt_immCount_iff]
    split_ifs with hunused hconst hscale
    · exact iff_of_false nofun fun ⟨⟨hpass, _⟩, _⟩ => hpass hunused
    · exact iff_of_false nofun fun ⟨⟨_, hpass, _⟩, _⟩ => hpass hconst
    · exact iff_of_false nofun fun ⟨⟨_, _, hpass⟩, _⟩ => hpass hscale
    · rw [Except.ok.injEq, and_iff_right ⟨hunused, hconst, hscale⟩]

/-- The legal commands: a mnemonic's opcode with an immediate below its count, and any operand words. -/
theorem decode_eq_ok_iff (c : Command) (i : Instr) :
    decode c = .ok i ↔ ∃ (m : Mnemonic) (imm : BitVec 5),
      imm.toNat < m.immCount ∧ c.cmd = commandWord m.opcode imm ∧ m.instr imm c.a c.b = i := by
  rw [decode_eq_ok_iff_fields]
  constructor
  · rintro ⟨hz, m, hm, himm, hi⟩
    exact ⟨m, _, himm, by rw [opcode_of_mnemonicOf hm, commandWord_fields hz], hi⟩
  · rintro ⟨m, imm, himm, hcmd, hi⟩
    simpa [hcmd] using ⟨himm, hi⟩

theorem exists_decode_iff (c : Command) :
    (∃ i, decode c = .ok i) ↔ ∃ (m : Mnemonic) (imm : BitVec 5),
      imm.toNat < m.immCount ∧ c.cmd = commandWord m.opcode imm := by
  constructor
  · rintro ⟨i, hi⟩
    obtain ⟨m, imm, himm, hcmd, -⟩ := (decode_eq_ok_iff c i).mp hi
    exact ⟨m, imm, himm, hcmd⟩
  · rintro ⟨m, imm, himm, hcmd⟩
    exact ⟨_, (decode_eq_ok_iff c _).mpr ⟨m, imm, himm, hcmd, rfl⟩⟩

/-- Decoding does not look at the operand words that the instruction's format does not read. -/
theorem decode_congr {w : CmdWord} {a a' b b' : Word} {i : Instr} (h : decode ⟨w, a, b⟩ = .ok i)
    (ha : i.parts.1.format.usesA = true → a = a') (hb : i.parts.1.format.usesB = true → b = b') :
    decode ⟨w, a', b'⟩ = .ok i := by
  obtain ⟨m, imm, himm, hcmd, rfl⟩ := (decode_eq_ok_iff _ i).mp h
  rw [parts_instr] at ha hb
  exact (decode_eq_ok_iff _ _).mpr ⟨m, imm, himm, hcmd, (instr_congr ha hb).symm⟩

/-- A format that does not read operand `a` does not read operand `b`. -/
theorem usesB_of_usesA_false {f : Format} : f.usesA = false → f.usesB = false := by
  cases f <;> decide

/-! ### The list of legal words (R64, R65) -/

/-- The commands in the order of `legalWords`: those without immediate in the order of R64, then the others. -/
def legalOrder : List Mnemonic :=
  allMnemonics.filter (fun m => !m.format.hasImm) ++ [.CONST, .INCF, .DECF]

theorem mem_legalOrder (m : Mnemonic) : m ∈ legalOrder := by
  cases m <;> decide

theorem legalWords_eq :
    Machine.legalWords =
      legalOrder.flatMap fun m => (List.range m.immCount).map (m.opcode.toNat + 64 * ·) := by
  rfl

theorem mem_legalWords_iff (n : Nat) :
    n ∈ Machine.legalWords ↔ ∃ (m : Mnemonic) (imm : BitVec 5),
      imm.toNat < m.immCount ∧ n = (commandWord m.opcode imm).toNat := by
  simp only [legalWords_eq, List.mem_flatMap, List.mem_map, List.mem_range, mem_legalOrder, true_and,
    toNat_commandWord]
  constructor
  · rintro ⟨m, k, hk, rfl⟩
    have hk32 : (BitVec.ofNat 5 k).toNat = k := by
      rw [BitVec.toNat_ofNat, Nat.mod_eq_of_lt (hk.trans_le (immCount_le m))]
    exact ⟨m, BitVec.ofNat 5 k, hk32.symm ▸ hk, by rw [hk32]⟩
  · rintro ⟨m, imm, himm, rfl⟩
    exact ⟨m, imm.toNat, himm, rfl⟩

end Sys2Proof

namespace Sys2Proof.Machine

/-! ### Compound assignments (R71, R72) -/

theorem format_compound (op : Compound) : op.mnem.format = .B := by cases op <;> rfl

/-- The command that the line of a compound assignment emits: the binary command, the variable's word as `a`. -/
theorem emit_compound (op : Compound) {x : String} {o : Machine.Operand} {vars : HostVars} {y w v : Word}
    (hx : vars.lookup x = some w) (ho : o.value vars y = some v) :
    (Pseudo.compound op x o).expand.emit vars y = some ⟨commandWord op.mnem.opcode 0, w, v⟩ := by
  have hvar : (Operand.var x).value vars y = some w := by simp [Operand.value, hx]
  simp [Line.emit, Pseudo.expand, operandWord, format_compound, Format.usesA, Format.usesB, hvar, ho]

/-- A line on a ready block: the block takes and runs the command that the line emits, and the host stores the
answer. -/
theorem run_of_emit {l : Line} {vars : HostVars} {s t : State} {c : Command}
    (hemit : l.emit vars s.y = some c) (hidle : s.inFlight = none)
    (hrun : runCommand c (s.holding c s.ticks) = .next t) :
    l.run vars s = some (vars.store l.dst t, t) := by
  have hstep : step { s with ticks := ⟨false, true, c, true⟩ :: s.ticks } = .next t := by
    rw [← hrun]
    exact step_of_taken rfl (taken_of_busy_or_presented (.inr ⟨hidle, rfl, rfl⟩))
  have hready : s.busy = false := by simp [hidle]
  simp only [Line.run, hemit, hready, Bool.false_eq_true, if_false, hstep]

theorem decode_compound (op : Compound) (w v : Word) :
    decode ⟨commandWord op.mnem.opcode 0, w, v⟩ = .ok (op.mnem.instr 0 w v) :=
  (decode_eq_ok_iff _ _).mpr ⟨op.mnem, 0, by cases op <;> decide, rfl, rfl⟩

end Sys2Proof.Machine

/-! ### The obligations of 30_encoding.md -/

section
open Sys2Proof Sys2Proof.Machine

/-- Settles O1: the encoding of an instruction is the legal command of its parts, and the parts make the
instruction. -/
theorem decodeEncodeRoundTrip : Obligations.DecodeEncodeRoundTrip := by
  intro i hwf
  exact (decode_eq_ok_iff _ i).mpr
    ⟨i.parts.1, i.parts.2.1, (wellFormed_iff i).mp hwf, cmd_of_encode i, instr_parts i⟩

/-- Settles O2: the parts of the decoded instruction are the mnemonic and the words it was made of. -/
theorem encodeDecodedCommand : Obligations.EncodeDecodedCommand := by
  intro c i hdec
  obtain ⟨m, imm, himm, hcmd, rfl⟩ := (decode_eq_ok_iff c i).mp hdec
  have hkept : (if m.format.hasImm then imm else 0) = imm := by
    split
    next => rfl
    next hnone => exact (eq_zero_of_lt_immCount himm (by simpa using hnone)).symm
  rw [wellFormed_iff, encode, parts_instr, hkept]
  exact ⟨himm, hcmd.symm, fun ha => if_pos ha, fun hb => if_pos hb⟩

/-- Settles O3: legal words and listed words are both the opcodes with an immediate below the count. -/
theorem legalCommandWords : Obligations.LegalCommandWords := by
  refine ⟨fun c => ?_, by decide, by decide⟩
  simp only [exists_decode_iff, mem_legalWords_iff, BitVec.toNat_inj]

/-- Settles O4. -/
theorem unusedOperandsIgnored : Obligations.UnusedOperandsIgnored := by
  intro w a a' b b' i hdec
  refine ⟨fun hb => ?_, fun ha => ?_⟩
  · exact decode_congr hdec (fun _ => rfl) (by simp [hb])
  · exact decode_congr hdec (by simp [ha]) (by simp [usesB_of_usesA_false ha])

/-- Settles O60: each of the five is its mnemonic's legal command without immediate, run as any line. -/
theorem compoundAssignmentAlias : Obligations.CompoundAssignmentAlias := by
  intro op x o vars s w v c i hop hidle hx ho
  obtain ⟨rfl, rfl⟩ : c = commandWord op.mnem.opcode 0 ∧ i = op.mnem.instr 0 w v := by
    simp only [List.mem_cons, List.not_mem_nil, or_false, Prod.mk.injEq] at hop
    rcases hop with h | h | h | h | h <;> obtain ⟨rfl, rfl, rfl⟩ := h <;> exact ⟨rfl, rfl⟩
  obtain ⟨t, hrun⟩ := exists_runCommand ⟨commandWord op.mnem.opcode 0, w, v⟩ (s.holding _ s.ticks)
  refine ⟨t, ?_, run_of_emit (emit_compound op hx ho) hidle hrun⟩
  rwa [runCommand_of_legal (decode_compound op w v)] at hrun

/-- Settles O5: the sample words are evaluated by the decoder. -/
theorem sampleWordsDecode : Obligations.SampleWordsDecode := by
  unfold Obligations.SampleWordsDecode
  decide

end
end

section
/-! PROOFS about 40_construction.md: the decoding of a command without immediate, a saturated answer (R81 to
R83), the rounded fraction of R83 and the binary64 patterns of R82. -/

namespace Sys2Proof

/-- The opcode with a zero immediate is legal for every mnemonic (R65), and decodes to its instruction. -/
theorem decode_opcode (m : Mnemonic) (a b : Word) :
    decode ⟨commandWord m.opcode 0, a, b⟩ = .ok (m.instr 0 a b) :=
  (decode_eq_ok_iff _ _).mpr ⟨m, 0, by cases m <;> decide, rfl, rfl⟩

theorem Instance.F_le_18 (p : Instance) : p.F ≤ 18 := p.F_le_TF.trans p.TF_le_18

end Sys2Proof

namespace Sys2Proof.Machine

/-! ### The answer of a command (R212) -/

/-- A result that fits is the signed reading of the word answered. -/
theorem exists_answered_of_fits {i : Instr} {s : State} {v : Int} (h : resultOf s.inst i = .ok v)
    (hv : Fits v) : ∃ y, exec i s = .next (s.answered y) ∧ y.toInt = v :=
  ⟨BitVec.ofInt 64 v, exec_of_ok h, toInt_ofInt_of_fits hv⟩

/-- A saturated result is answered clamped to the signed range (R6). -/
theorem exists_answered_of_sat64 {i : Instr} {s : State} {z : Int}
    (h : resultOf s.inst i = .ok (sat64 z)) :
    ∃ y, exec i s = .next (s.answered y) ∧ y.toInt = max min64 (min max64 z) := by
  rw [← sat64_eq_max_min]
  exact exists_answered_of_fits h (sat64_mono_fits z)

theorem fits_p10 {k : Nat} (hk : k ≤ 18) : Fits (p10 k) := by
  have hpos := p10_pos k
  have hle := p10_le k hk
  rw [fits_iff]
  omega

/-! ### The rounded fraction (R83) -/

/-- Rounding a natural number by an even divisor is adding half of the divisor before the division. -/
theorem rha_natCast_of_even (n : Nat) {d : Nat} (hd : 0 < d) (heven : d % 2 = 0) :
    rha n d = ((n + d / 2) / d : Nat) := by
  have hdouble : 2 * (n : Int) + d = 2 * ((n + d / 2 : Nat) : Int) := by omega
  rw [rha_of_nonneg (by omega) (by omega), hdouble, Int.mul_ediv_mul_of_pos _ _ (by norm_num),
    ← Int.natCast_ediv]

/-- At every scale of the block a digit is left to round, so the divisor `10^(19 - s)` is even. -/
theorem twoPart_natCast {s : Nat} (hs : s ≤ 18) (ip : Int) (fn : Nat) :
    twoPart s ip fn = ip * 10 ^ s + ((fn + 10 ^ (19 - s) / 2) / 10 ^ (19 - s) : Nat) := by
  have heven : 10 ^ (19 - s) % 2 = 0 :=
    Nat.mod_eq_zero_of_dvd (dvd_pow (by norm_num) (by omega))
  rw [twoPart, p10_eq s, p10, rha_natCast_of_even fn (by positivity) heven]

/-! ### The fields of a binary64 pattern (R82) -/

theorem fltSign_eq (a : Word) : fltSign a = decide (2 ^ 63 ≤ a.toNat) :=
  BitVec.msb_eq_decide a

theorem fltExp_eq (a : Word) : fltExp a = a.toNat / 2 ^ 52 % 2048 := by
  simp [fltExp, Nat.shiftRight_eq_div_pow]

theorem fltFrac_eq (a : Word) : fltFrac a = a.toNat % 2 ^ 52 := by
  simp [fltFrac]

/-! ### The one rounding of R82 -/

/-- `q` is the integer nearest to the rational `v`, a tie being rounded up; for `v` not negative that is away
from zero. -/
def IsHalfUp (q : Int) (v : ℚ) : Prop :=
  |(q : ℚ) - v| ≤ 1 / 2 ∧ (|(q : ℚ) - v| = 1 / 2 → v < q)

theorem isHalfUp_intCast (q : Int) : IsHalfUp q q := by
  simp [IsHalfUp]

/-- `IsNearest` (R8) says the distance of `q` from the quotient times the divisor. -/
theorem isHalfUp_of_isNearest {q n d : Int} (hq : 0 ≤ q) (hn : 0 ≤ n) (hd : 0 < d)
    (h : IsNearest q n d) : IsHalfUp q (n / d) := by
  obtain ⟨hdist, htie⟩ := h
  rw [abs_of_nonneg hq, abs_of_nonneg hn] at htie
  have hd' : (0 : ℚ) < d := by exact_mod_cast hd
  have hscaled : |(q : ℚ) - n / d| = (|q * d - n| : Int) / (d : ℚ) := by
    rw [sub_div' hd'.ne', abs_div, abs_of_pos hd']
    push_cast
    rfl
  rw [IsHalfUp, hscaled, div_le_div_iff₀ hd' two_pos, div_eq_div_iff hd'.ne' two_ne_zero, div_lt_iff₀ hd']
  norm_cast
  rw [one_mul, mul_comm _ 2]
  exact ⟨hdist, htie⟩

theorem isHalfUp_rha {n d : Int} (hn : 0 ≤ n) (hd : 0 < d) : IsHalfUp (rha n d) (n / d) :=
  isHalfUp_of_isNearest ((rha_sign n d hd).1 hn) hn hd (isNearest_rha n hd)

theorem pow2_eq (k : Nat) : pow2 k = 2 ^ k := by simp [pow2]

theorem fltSignificand_nonneg (a : Word) : 0 ≤ fltSignificand a := by
  unfold fltSignificand pow2
  split <;> positivity

/-- The exact value of a finite pattern's magnitude at scale `f`, before the rounding. -/
def fltExact (f : Nat) (a : Word) : ℚ := fltSignificand a * 2 ^ fltExponent a * 10 ^ f

/-- An exponent that is not negative leaves an integer; with a negative one the power of two is the divisor. -/
theorem isHalfUp_fltMagnitude (f : Nat) (a : Word) : IsHalfUp (fltMagnitude f a) (fltExact f a) := by
  unfold fltMagnitude
  split
  next hexp =>
    obtain ⟨k, hk⟩ := Int.eq_ofNat_of_zero_le hexp
    have hexact : fltExact f a = (fltSignificand a * p10 f * pow2 k : Int) := by
      rw [fltExact, hk, p10_eq, pow2_eq]
      push_cast
      rw [zpow_natCast]
      ring
    rw [hexact, hk, Int.toNat_natCast]
    exact isHalfUp_intCast _
  next hexp =>
    obtain ⟨k, hk⟩ := Int.eq_ofNat_of_zero_le (show 0 ≤ -fltExponent a by omega)
    have hexact : fltExact f a = (fltSignificand a * p10 f : Int) / (pow2 k : Int) := by
      rw [fltExact, ← neg_neg (fltExponent a), hk, p10_eq, pow2_eq, zpow_neg, zpow_natCast]
      push_cast
      ring
    rw [hexact, hk, Int.toNat_natCast]
    exact isHalfUp_rha (mul_nonneg (fltSignificand_nonneg a) (p10_pos f).le)
      (by rw [pow2_eq]; positivity)

/-- The significand and the exponent of R82, for a subnormal and for a normal pattern. -/
theorem fltExact_eq (f : Nat) (a : Word) :
    fltExact f a = (if fltExp a = 0 then (fltFrac a : ℚ) * 2 ^ (-1074 : ℤ)
      else (2 ^ 52 + (fltFrac a : ℚ)) * 2 ^ ((fltExp a : ℤ) - 1075)) * 10 ^ f := by
  unfold fltExact fltSignificand fltExponent
  split
  next => rw [Int.cast_natCast]
  next =>
    rw [pow2_eq]
    push_cast
    rfl

/-! ### What FROMFLT computes, by the exponent field (R82) -/

theorem fromFlt_nan {f : Nat} {a : Word} (hexp : fltExp a = 2047) (hfrac : fltFrac a ≠ 0) :
    fromFlt f a = .error .invalidFloatInput := if_pos ⟨hexp, hfrac⟩

theorem fromFlt_infinity {f : Nat} {a : Word} (hexp : fltExp a = 2047) (hfrac : fltFrac a = 0) :
    fromFlt f a = .ok (if fltSign a then min64 else max64) := by
  simp [fromFlt, hexp, hfrac]

theorem fromFlt_finite {f : Nat} {a : Word} (hexp : fltExp a ≠ 2047) :
    fromFlt f a = .ok (sat64 (if fltSign a then -fltMagnitude f a else fltMagnitude f a)) := by
  simp [fromFlt, hexp]

end Sys2Proof.Machine

/-! ### The obligations of 40_construction.md -/

section
open Sys2Proof Sys2Proof.Machine

/-- Settles O26. -/
theorem fromrawIsIdentity : Obligations.FromrawIsIdentity := by
  intro a b s
  refine ⟨decode_opcode .FROMRAW a b, ?_⟩
  rw [exec_of_ok (i := .fromraw a) rfl, ofInt_signed]

/-- Settles O27. -/
theorem fromintSaturates : Obligations.FromintSaturates := by
  intro a b s
  rw [← p10_eq]
  exact ⟨decode_opcode .FROMINT a b, exists_answered_of_sat64 rfl⟩

/-- Settles O28: one clause for each case of `fromFlt`; the finite one is rounded once, in `fltMagnitude`. -/
theorem fromfltRoundsOnce : Obligations.FromfltRoundsOnce := by
  rintro a s _ _ _ rfl rfl rfl
  rw [← fltSign_eq, ← fltExp_eq, ← fltFrac_eq]
  refine ⟨fun hexp hfrac => exec_of_error (i := .fromflt a) (fromFlt_nan hexp hfrac), fun hexp hfrac => ?infinity,
    fun hexp => ?finite⟩
  case infinity =>
    rw [exec_of_ok (i := .fromflt a) (fromFlt_infinity hexp hfrac)]
    cases fltSign a <;> rfl
  case finite =>
    obtain ⟨hnear, htie⟩ := isHalfUp_fltMagnitude s.inst.F a
    obtain ⟨y, hexec, hy⟩ := exists_answered_of_sat64 (i := .fromflt a) (s := s) (fromFlt_finite hexp)
    exact ⟨fltExact s.inst.F a, fltMagnitude s.inst.F a, y, fltExact_eq _ a, hnear, htie, hexec, hy⟩

/-- Settles O29: the fraction is a natural number, so half away from zero is half up. -/
theorem from2pAddsFraction : Obligations.From2pAddsFraction := by
  intro a b s
  rw [← twoPart_natCast s.inst.F_le_18]
  exact ⟨decode_opcode .FROM2P a b, exists_answered_of_sat64 rfl⟩

/-- Settles O30. -/
theorem scaleReturnsPowerOfTen : Obligations.ScaleReturnsPowerOfTen := by
  intro a b s
  obtain ⟨y, hexec, hy⟩ := exists_answered_of_fits (i := .scale) (s := s) rfl (fits_p10 s.inst.F_le_18)
  refine ⟨decode_opcode .SCALE a b, y, hexec, by rw [hy, p10_eq], ?constOne⟩
  case constOne => rw [exec_eq_conclude, exec_eq_conclude]; rfl

end
end

section
/-! PROOFS about 41_constant_rom.md: the entries of the ROM (R91), the word of an entry at a scale (R92) and
the command `CONST` (R94). -/

namespace Sys2Proof.Machine

/-! ### The entries (R91) -/

/-- The table of R91: the index, integer part and numerator of every entry of the ROM. -/
def romTable : List (BitVec 5 × Nat × Nat) := romC.mapIdx fun j e => (BitVec.ofNat 5 (j + 2), e.ip, e.fn)

/-- A row of the table of R91 is an entry of the ROM under the index that names it. -/
theorem exists_entry_of_mem_romTable {k : BitVec 5} {ip fn : Nat} (h : (k, ip, fn) ∈ romTable) :
    ∃ j, immediate k = j + 2 ∧ romC[j]? = some ⟨ip, fn⟩ := by
  obtain ⟨j, hj, hrow⟩ := List.mem_mapIdx.mp h
  have hlen : romC.length = 7 := rfl
  simp only [Prod.mk.injEq] at hrow
  obtain ⟨rfl, rfl, rfl⟩ := hrow
  refine ⟨j, ?index, List.getElem?_eq_getElem hj⟩
  case index => rw [immediate, BitVec.toNat_ofNat, Nat.mod_eq_of_lt (by omega)]

theorem romC_index_lt {j : Nat} {e : RomEntry} (h : romC[j]? = some e) : j < 7 :=
  (List.getElem?_eq_some_iff.mp h).1

/-- Integer parts are small, and a numerator has at most 19 digits. -/
theorem romC_bounds {j : Nat} {e : RomEntry} (h : romC[j]? = some e) : e.ip ≤ 6 ∧ e.fn < 10 ^ 19 := by
  have hall : ∀ e ∈ romC, e.ip ≤ 6 ∧ e.fn < 10 ^ 19 := by decide
  exact hall e (List.mem_of_getElem? h)

/-! ### The word of an entry (R92) -/

theorem constWord_of_entry {j : Nat} {e : RomEntry} (h : romC[j]? = some e) (s : Nat) :
    constWord s (j + 2) = twoPart s e.ip e.fn := by
  simp [constWord, h]

/-- Rounding to scale `s` takes a numerator of 19 digits to one unit of the integer part at most. -/
theorem roundedNumerator_le {s fn : Nat} (hs : s ≤ 18) (hfn : fn < 10 ^ 19) :
    (fn + 10 ^ (19 - s) / 2) / 10 ^ (19 - s) ≤ 10 ^ s := by
  have hsplit : 10 ^ (19 - s) * 10 ^ s = 10 ^ 19 := by rw [← pow_add, Nat.sub_add_cancel (by omega)]
  have hpos : 0 < 10 ^ (19 - s) := by positivity
  refine Nat.lt_succ_iff.mp (Nat.div_lt_of_lt_mul ?_)
  rw [Nat.mul_succ, hsplit]
  omega

/-- Nothing saturates: the word of an entry fits at every scale of the block. -/
theorem fits_twoPart_of_entry {j : Nat} {e : RomEntry} (h : romC[j]? = some e) {s : Nat} (hs : s ≤ 18) :
    Fits (twoPart s e.ip e.fn) := by
  obtain ⟨hip, hfn⟩ := romC_bounds h
  have hround := roundedNumerator_le hs hfn
  have hscale : 10 ^ s ≤ 10 ^ 18 := Nat.pow_le_pow_right (by norm_num) hs
  have hwhole : e.ip * 10 ^ s ≤ 6 * 10 ^ 18 := Nat.mul_le_mul hip hscale
  rw [twoPart_natCast hs, fits_iff]
  generalize (e.fn + 10 ^ (19 - s) / 2) / 10 ^ (19 - s) = rounded at hround ⊢
  norm_cast
  omega

/-! ### The command (R94) -/

theorem resultOf_const {k : BitVec 5} (h : immediate k ≤ 8) (p : Instance) :
    resultOf p (.const k) = .ok (constWord p.F (immediate k)) := if_neg (by omega)

end Sys2Proof.Machine

/-! ### The obligations of 41_constant_rom.md -/

section
open Sys2Proof Sys2Proof.Machine

/-- Settles O31: the listed entries are the ROM's, and the word of an entry fits, so it is answered as it is. -/
theorem constRoundsRomEntry : Obligations.ConstRoundsRomEntry := by
  refine ⟨fun s => exec_of_ok (resultOf_const (by decide) s.inst), fun k ip fn s hrow => ?_⟩
  obtain ⟨j, hk, hentry⟩ := exists_entry_of_mem_romTable hrow
  have hj := romC_index_lt hentry
  have hresult : resultOf s.inst (.const k) = .ok (twoPart s.inst.F ip fn) := by
    rw [resultOf_const (by omega), hk, constWord_of_entry hentry]
  rw [← twoPart_natCast s.inst.F_le_18]
  exact exists_answered_of_fits hresult (fits_twoPart_of_entry hentry s.inst.F_le_18)

/-- Settles O32: R95 is a finite table, so the rule of R92 is evaluated at the nineteen scales. -/
theorem constantTable : Obligations.ConstantTable := by
  refine ⟨?table, ?tauNotTwicePi, ?piNotTwiceHalfPi⟩
  case table => decide
  case tauNotTwicePi => decide
  case piNotTwiceHalfPi => decide

end
end

section
/-! PROOFS about 42_arithmetic.md: the integer operators R100 to R106 on signed words are the operations of
64-bit two's complement, and the half-adjusted quotients of R104 and R105 round to nearest while nothing
wraps. -/

namespace Sys2Proof.Machine

/-! ### The wrapped operations on signed words (R5, R10) -/

theorem wrap64_signed_add (a b : Word) : wrap64 (signed a + signed b) = signed (a + b) :=
  (BitVec.toInt_add a b).symm

theorem wrap64_signed_sub (a b : Word) : wrap64 (signed a - signed b) = signed (a - b) :=
  BitVec.toInt_sub.symm

theorem wrap64_signed_mul (a b : Word) : wrap64 (signed a * signed b) = signed (a * b) :=
  (BitVec.toInt_mul a b).symm

theorem wrap64_signed_neg (a : Word) : wrap64 (-signed a) = signed (-a) :=
  BitVec.toInt_neg.symm

theorem wrap64_tdiv_signed (a b : Word) : wrap64 (tdiv (signed a) (signed b)) = signed (a.sdiv b) :=
  (BitVec.toInt_sdiv a b).symm

/-- Only a negative divisor can take the quotient out of the signed range. -/
theorem tdiv_signed_of_pos (a : Word) {b : Word} (hb : 0 < signed b) :
    tdiv (signed a) (signed b) = signed (a.sdiv b) := by
  rw [← wrap64_tdiv_signed, wrap64_of_fits (fits_tdiv (fits_signed a) hb)]

theorem trem_signed (a b : Word) : trem (signed a) (signed b) = signed (a.srem b) := by
  rw [trem_eq_tmod]
  exact (BitVec.toInt_srem a b).symm

theorem signed_nonneg_iff (a : Word) : 0 ≤ signed a ↔ a.msb = false := by
  rw [signed, BitVec.msb_eq_toInt, decide_eq_false_iff_not, not_lt]

/-- Branching on the sign of a word is branching on its sign bit. -/
theorem ite_signed_nonneg {α : Type} (a : Word) (x y : α) :
    (if 0 ≤ signed a then x else y) = if a.msb then y else x := by
  cases h : a.msb
  · exact if_pos ((signed_nonneg_iff a).mpr h)
  · exact if_neg (by simp [signed_nonneg_iff, h])

theorem signed_eq_zero_iff (a : Word) : signed a = 0 ↔ a = 0 :=
  BitVec.toInt_inj (y := 0#64)

theorem signed_ofNat_of_le {k : Nat} (hk : k ≤ 10 ^ 18) : signed (BitVec.ofNat 64 k) = k := by
  rw [signed, ← BitVec.ofInt_natCast]
  exact toInt_ofInt_of_fits ((fits_iff _).mpr (by omega))

theorem signed_scale {s : Nat} (hs : s ≤ 18) : signed (BitVec.ofNat 64 (10 ^ s)) = p10 s :=
  signed_ofNat_of_le (Nat.pow_le_pow_right (by norm_num) hs)

theorem signed_halfScale {s : Nat} (hs : s ≤ 18) :
    signed (BitVec.ofNat 64 (10 ^ s / 2)) = tdiv (p10 s) 2 := by
  have hscale : 10 ^ s ≤ 10 ^ 18 := Nat.pow_le_pow_right (by norm_num) hs
  exact signed_ofNat_of_le (by omega)

/-- R212: the word of a result that is given as the signed reading of a word. -/
theorem exec_of_ok_signed {i : Instr} {s : State} {w : Word} (h : resultOf s.inst i = .ok (signed w)) :
    exec i s = .next (s.answered w) := by
  rw [exec_of_ok h, ofInt_signed]

/-! ### The operators on signed words (R100 to R106) -/

theorem fxAbs_signed (a : Word) : fxAbs (signed a) = signed (if a.msb then -a else a) := by
  rw [fxAbs, fxNeg, wrap64_signed_neg, ite_signed_nonneg, apply_ite signed]

/-- R104 on words, for a scale word `sc` and its half `h`. -/
theorem scaleProduct_signed {sc h : Word} (p : Word) (hsc : 0 < signed sc)
    (hh : signed h = tdiv (signed sc) 2) :
    scaleProduct (signed sc) (signed p) = signed ((if p.msb then p - h else p + h).sdiv sc) := by
  rw [scaleProduct, ← hh, wrap64_signed_add, wrap64_signed_sub, ite_signed_nonneg, ← apply_ite signed,
    tdiv_signed_of_pos _ hsc]

/-- On a nonzero divisor the condition of R105 compares the two sign bits. -/
theorem nonneg_iff_pos_iff_msb_eq (n : Word) {b : Word} (hb : b ≠ 0) :
    (0 ≤ signed n ↔ 0 < signed b) ↔ n.msb = b.msb := by
  have hne : signed b ≠ 0 := (signed_eq_zero_iff b).not.mpr hb
  have hpos : 0 < signed b ↔ 0 ≤ signed b := by omega
  rw [hpos, signed_nonneg_iff, signed_nonneg_iff]
  cases n.msb <;> cases b.msb <;> decide

theorem pushAway_signed (n : Word) {b : Word} (hb : b ≠ 0) :
    pushAway (signed n) (signed b) =
      signed (if n.msb = b.msb then n + b.sdiv 2 else n - b.sdiv 2) := by
  have hhalf : tdiv (signed b) 2 = signed (b.sdiv 2) := tdiv_signed_of_pos b (b := 2) (by decide)
  rw [pushAway, hhalf, wrap64_signed_add, wrap64_signed_sub, apply_ite signed]
  exact if_congr (nonneg_iff_pos_iff_msb_eq n hb) rfl rfl

/-! ### The half-adjusted quotient (R104, R105) -/

/-- The dividend `n` moved away from zero by `h`, with no wrapping. -/
def halfAdjust (n h : Int) : Int := if 0 ≤ n then n + h else n - h

theorem scaleProduct_eq (sc p : Int) :
    scaleProduct sc p = tdiv (wrap64 (halfAdjust p (tdiv sc 2))) sc := by
  rw [scaleProduct, halfAdjust, apply_ite wrap64]

theorem abs_halfAdjust (n : Int) {h : Int} (hh : 0 ≤ h) : |halfAdjust n h| = |n| + h := by
  unfold halfAdjust
  split
  next hn => rw [abs_of_nonneg hn, abs_of_nonneg (by omega)]
  next hn => rw [abs_of_neg (by omega), abs_of_neg (by omega)]; ring

theorem fits_of_abs_le_max64 {z : Int} (h : |z| ≤ max64) : Fits z := by
  obtain ⟨hlow, hhigh⟩ := abs_le.mp h
  exact ⟨by simp only [min64, max64] at *; omega, hhigh⟩

/-- R105 pushes the dividend away from zero by half of the divisor's magnitude. -/
theorem pushAway_eq (n : Int) {b : Int} (hb : b ≠ 0) :
    pushAway n b = wrap64 (halfAdjust n (|b| / 2)) := by
  rw [pushAway, halfAdjust]
  rcases lt_or_gt_of_ne hb with hneg | hpos
  · have hhalf : tdiv b 2 = -(|b| / 2) := by
      rw [abs_of_neg hneg, ← Int.tdiv_eq_ediv_of_nonneg (by omega), Int.neg_tdiv, neg_neg, tdiv]
    rw [hhalf, sub_neg_eq_add, ← sub_eq_add_neg, apply_ite wrap64, ← ite_not]
    exact if_congr (by simp [hneg.not_gt]) rfl rfl
  · have hhalf : tdiv b 2 = |b| / 2 := by rw [abs_of_pos hpos, tdiv, Int.tdiv_eq_ediv_of_nonneg hpos.le]
    simp only [hhalf, hpos, iff_true, apply_ite wrap64]

/-- The half may be truncated, for an odd divisor too: one less than an odd numerator `2 * n + d` has the same
quotient by `2 * d`. -/
theorem rha_eq_tdiv_add_half {n d : Int} (hn : 0 ≤ n) (hd : 0 < d) : rha n d = tdiv (n + d / 2) d := by
  have hhalf : (2 * n + d) / 2 = n + d / 2 := by omega
  rw [rha_of_nonneg hn hd, ← Int.ediv_ediv_of_nonneg (by norm_num), hhalf, tdiv,
    Int.tdiv_eq_ediv_of_nonneg (by omega)]

theorem rha_eq_tdiv_halfAdjust (n : Int) {d : Int} (hd : 0 < d) :
    rha n d = tdiv (halfAdjust n (d / 2)) d := by
  unfold halfAdjust
  split
  next hn => exact rha_eq_tdiv_add_half hn hd
  next hn =>
    have hneg : -n + d / 2 = -(n - d / 2) := by ring
    have h := rha_eq_tdiv_add_half (n := -n) (by omega) hd
    rw [rha_neg, hneg, tdiv_neg_left] at h
    exact neg_injective h

/-- While nothing wraps, half-adjusting and truncating is rounding (R8). -/
theorem tdiv_wrap64_halfAdjust {n d : Int} (hd : 0 < d) (hfit : |n| + d / 2 ≤ max64) :
    tdiv (wrap64 (halfAdjust n (d / 2))) d = rha n d := by
  have hfits : Fits (halfAdjust n (d / 2)) :=
    fits_of_abs_le_max64 (by rwa [abs_halfAdjust n (by omega)])
  rw [wrap64_of_fits hfits, rha_eq_tdiv_halfAdjust n hd]

theorem fxMul_eq_rha {s : Nat} {a b : Int} (hfit : |a * b| + p10 s / 2 ≤ max64) :
    fxMul s a b = rha (a * b) (p10 s) := by
  have hpos := p10_pos s
  have hproduct : Fits (a * b) := fits_of_abs_le_max64 (by omega)
  have hhalf : tdiv (p10 s) 2 = p10 s / 2 := Int.tdiv_eq_ediv_of_nonneg hpos.le
  rw [fxMul, wrap64_of_fits hproduct, scaleProduct_eq, hhalf, tdiv_wrap64_halfAdjust hpos hfit]

theorem tdiv_eq_sign_mul_tdiv_abs (n b : Int) : tdiv n b = b.sign * tdiv n |b| := by
  rcases lt_trichotomy b 0 with hneg | rfl | hpos
  · rw [Int.sign_eq_neg_one_of_neg hneg, abs_of_neg hneg, tdiv, tdiv, Int.tdiv_neg]; ring
  · simp [tdiv]
  · rw [Int.sign_eq_one_of_pos hpos, abs_of_pos hpos, one_mul]

theorem fits_sign_mul_rha {n b : Int} (hb : b ≠ 0) (hn : |n| ≤ max64) : Fits (b.sign * rha n |b|) := by
  refine fits_of_abs_le_max64 ?_
  rw [abs_mul, Int.abs_sign_of_ne_zero hb, one_mul]
  exact (abs_rha_le n |b| (abs_pos.mpr hb)).trans hn

/-- The quotient of R105 carries the sign of the divisor; without it, it is the dividend rounded at the
divisor's magnitude. -/
theorem isNearest_sign_mul_rha (n : Int) {b : Int} (hb : b ≠ 0) :
    IsNearest (b.sign * rha n |b| * b.sign) n |b| := by
  have hsign : b.sign * b.sign = 1 := by
    rw [← Int.abs_sign_of_ne_zero hb, ← Int.sign_mul_self_eq_abs, Int.sign_sign]
  rw [mul_right_comm, hsign, one_mul]
  exact isNearest_rha n (abs_pos.mpr hb)

theorem fxDiv_eq_rha {s : Nat} {a b : Int} (hb : b ≠ 0) (hfit : |a * p10 s| + |b| / 2 ≤ max64) :
    fxDiv s a b = .ok (b.sign * rha (a * p10 s) |b|) := by
  have hpos : 0 < |b| := abs_pos.mpr hb
  have hdividend : |a * p10 s| ≤ max64 := by omega
  rw [fxDiv, if_neg hb, wrap64_of_fits (fits_of_abs_le_max64 hdividend), pushAway_eq _ hb,
    tdiv_eq_sign_mul_tdiv_abs, tdiv_wrap64_halfAdjust hpos hfit,
    wrap64_of_fits (fits_sign_mul_rha hb hdividend)]

end Sys2Proof.Machine

/-! ### The obligations of 42_arithmetic.md -/

section
open Sys2Proof Sys2Proof.Machine

/-- Settles O33: each operator is the signed reading of its word operation. -/
theorem addSubNegAbsWrap : Obligations.AddSubNegAbsWrap := by
  intro a b s
  exact ⟨exec_of_ok_signed (congrArg Except.ok (wrap64_signed_add a b)),
    exec_of_ok_signed (congrArg Except.ok (wrap64_signed_sub a b)),
    exec_of_ok_signed (congrArg Except.ok (wrap64_signed_neg a)),
    exec_of_ok_signed (congrArg Except.ok (fxAbs_signed a))⟩

/-- Settles O34: R104 on words, at scale `F`. -/
theorem mulIsWrappedProduct : Obligations.MulIsWrappedProduct := by
  rintro a b _ _ _ s rfl rfl rfl
  have hscale := signed_scale s.inst.F_le_18
  have hpos : 0 < signed (BitVec.ofNat 64 (10 ^ s.inst.F)) := hscale ▸ p10_pos s.inst.F
  have hhalf := signed_halfScale s.inst.F_le_18
  rw [← hscale] at hhalf
  have hresult := scaleProduct_signed (a * b) hpos hhalf
  rw [hscale, ← wrap64_signed_mul] at hresult
  exact exec_of_ok_signed (congrArg Except.ok hresult)

/-- Settles O35: in range R104 is `rha`, which rounds to nearest. -/
theorem mulIsExactInRange : Obligations.MulIsExactInRange := by
  intro a b s hfit
  have hrange : |signed a * signed b| + p10 s.inst.F / 2 ≤ max64 := by
    rw [p10_eq]
    exact hfit
  obtain ⟨y, hexec, hy⟩ := exists_answered_of_fits (i := .mul a b) (s := s) rfl (fits_fxMul _ _ _)
  refine ⟨y, hexec, ?nearest⟩
  case nearest =>
    rw [hy, fxMul_eq_rha hrange, ← p10_eq]
    exact isNearest_rha _ (p10_pos _)

/-- Settles O36: R105 on words, at scale `F`. -/
theorem divIsWrappedQuotient : Obligations.DivIsWrappedQuotient := by
  rintro a b _ _ _ s rfl rfl rfl
  refine ⟨?zeroDivisor, fun hb => exec_of_ok_signed ?quotient⟩
  case zeroDivisor =>
    rintro rfl
    exact exec_of_error (i := .div a 0) rfl
  case quotient =>
    rw [← wrap64_tdiv_signed, ← pushAway_signed _ hb, ← wrap64_signed_mul, signed_scale s.inst.F_le_18]
    exact if_neg ((signed_eq_zero_iff b).not.mpr hb)

/-- Settles O37: the quotient is rounded by `rha` at the magnitude of the divisor and takes its sign. -/
theorem divIsExactInRange : Obligations.DivIsExactInRange := by
  intro a b s hb hfit
  have hne : signed b ≠ 0 := (signed_eq_zero_iff b).not.mpr hb
  have hrange : |signed a * p10 s.inst.F| + |signed b| / 2 ≤ max64 := by
    rw [abs_mul, abs_of_pos (p10_pos s.inst.F), p10_eq]
    exact hfit
  obtain ⟨y, hexec, hy⟩ := exists_answered_of_fits (i := .div a b) (s := s) (fxDiv_eq_rha hne hrange)
    (fits_sign_mul_rha hne (le_of_add_le_of_nonneg_left hrange (by positivity)))
  refine ⟨y, hexec, ?nearest⟩
  case nearest =>
    rw [hy, ← p10_eq]
    exact isNearest_sign_mul_rha _ hne

/-- Settles O38: the library's `BitVec.srem` is the truncated remainder, which cannot overflow. -/
theorem remIsTruncated : Obligations.RemIsTruncated := by
  intro a b s
  refine ⟨?zeroDivisor, fun hb =>
    ⟨a.srem b, exec_of_ok_signed ?remainder, rfl, BitVec.toInt_srem a b⟩⟩
  case zeroDivisor =>
    rintro rfl
    exact exec_of_error (i := .rem a 0) rfl
  case remainder =>
    rw [← trem_signed]
    exact if_neg ((signed_eq_zero_iff b).not.mpr hb)

end
end

section
/-! PROOFS about 43_precision_conversion.md: the outcomes of `INCF` and `DECF` at a legal target scale (R122,
R123). -/

namespace Sys2Proof.Machine

/-! ### The two directions (R122, R123) -/

section
variable {p : Instance} {newF : BitVec 5} (a : Word)

theorem resultOf_incf_of_lt (hlegal : newF.toNat ≤ 18) (hdir : newF.toNat < p.F) :
    resultOf p (.incf newF a) = .error .precisionDirectionViolation :=
  (if_neg hlegal.not_gt).trans (if_pos hdir)

/-- `INCF` answers the widened operand, which R120 saturates. -/
theorem resultOf_incf_of_le (hlegal : newF.toNat ≤ 18) (hdir : p.F ≤ newF.toNat) :
    resultOf p (.incf newF a) = .ok (sat64 (signed a * p10 (newF.toNat - p.F))) :=
  (if_neg hlegal.not_gt).trans (if_neg hdir.not_gt)

theorem resultOf_decf_of_lt (hlegal : newF.toNat ≤ 18) (hdir : p.F < newF.toNat) :
    resultOf p (.decf newF a) = .error .precisionDirectionViolation :=
  (if_neg hlegal.not_gt).trans (if_pos hdir)

theorem resultOf_decf_of_le (hlegal : newF.toNat ≤ 18) (hdir : newF.toNat ≤ p.F) :
    resultOf p (.decf newF a) = .ok (narrow p.F newF.toNat (signed a)) :=
  (if_neg hlegal.not_gt).trans (if_neg hdir.not_gt)

end

/-- R121: narrowing gives the nearest integer at the smaller scale, ties away from zero. -/
theorem isNearest_narrow (s1 s2 : Nat) (v : Int) : IsNearest (narrow s1 s2 v) v (10 ^ (s1 - s2)) := by
  rw [← p10_eq]
  exact isNearest_rha v (p10_pos _)

end Sys2Proof.Machine

/-! ### The obligations of 43_precision_conversion.md -/

section
open Sys2Proof Sys2Proof.Machine

/-- Settles O39. -/
theorem incfWidens : Obligations.IncfWidens := by
  intro newF a s hlegal
  refine ⟨fun hdir => exec_of_error (resultOf_incf_of_lt a hlegal hdir), fun hdir => ?widened⟩
  case widened =>
    rw [← p10_eq]
    exact exists_answered_of_sat64 (resultOf_incf_of_le a hlegal hdir)

/-- Settles O40: a narrowed word is a word (`fits_narrow`), so nothing wraps when it is answered. -/
theorem decfNarrows : Obligations.DecfNarrows := by
  intro newF a s hlegal
  refine ⟨fun hdir => exec_of_error (resultOf_decf_of_lt a hlegal hdir), fun hdir => ?narrowed⟩
  case narrowed =>
    obtain ⟨y, hexec, hy⟩ := exists_answered_of_fits (resultOf_decf_of_le a hlegal hdir)
      (fits_narrow (fits_signed a) _ _)
    refine ⟨y, hexec, ?nearest⟩
    case nearest =>
      rw [hy]
      exact isNearest_narrow _ _ _

end
end

section
/-! PROOFS about 44_sqrt.md: the Newton-Raphson loop finds `Nat.sqrt` (R131) within its bound on passes (R134),
and what `fx_sqrt` answers is the nearest root (R130, R132). -/

namespace Sys2Proof.Machine

/-! ### The iterates (R131) -/

/-- The next iterate of R131: the midpoint of `x` and `n / x`. -/
def midpoint (n x : Nat) : Nat := (x + n / x) / 2

theorem isqrtLoop_succ (n fuel x : Nat) :
    isqrtLoop n (fuel + 1) x = if x ≤ midpoint n x then x else isqrtLoop n fuel (midpoint n x) := rfl

/-- No iterate falls below the floor of the root: the mean of `x` and `n / x` is not below `√n`. -/
theorem sqrt_le_midpoint {n x : Nat} (hx : 0 < x) : n.sqrt ≤ midpoint n x := by
  have hroot : n.sqrt * n.sqrt ≤ n := Nat.sqrt_le n
  have hquot : n < x * (n / x + 1) := Nat.lt_mul_div_succ n hx
  have hmean : 2 * n.sqrt < x + (n / x + 1) := by
    refine lt_of_pow_lt_pow_left₀ 2 (Nat.zero_le _) ?_
    calc (2 * n.sqrt) ^ 2 = 4 * (n.sqrt * n.sqrt) := by ring
      _ < 4 * (x * (n / x + 1)) := by omega
      _ = 4 * x * (n / x + 1) := (mul_assoc ..).symm
      _ ≤ (x + (n / x + 1)) ^ 2 := four_mul_le_sq_add x _
  unfold midpoint
  omega

/-- At the floor of the root the sequence stops decreasing. -/
theorem sqrt_le_midpoint_sqrt (n : Nat) : n.sqrt ≤ midpoint n n.sqrt := by
  rcases Nat.eq_zero_or_pos n.sqrt with hzero | hpos
  · exact hzero ▸ Nat.zero_le _
  · exact sqrt_le_midpoint hpos

/-- Above the floor of the root, one pass leaves at most half of the distance to it: `n / x` is not above
the floor. -/
theorem midpoint_le_of_sqrt_lt {n x : Nat} (hx : n.sqrt < x) : midpoint n x ≤ (x + n.sqrt) / 2 := by
  have hquot : n / x < n.sqrt + 1 :=
    Nat.div_lt_of_lt_mul ((Nat.lt_succ_sqrt n).trans_le (Nat.mul_le_mul_right _ hx))
  unfold midpoint
  omega

/-! ### The loop and its bound (R131, R134) -/

/-- The loop finds the floor of the root from any iterate above it: every pass halves the distance, so
`fuel` passes are enough for a distance below `2^fuel`. -/
theorem isqrtLoop_eq_sqrt {n fuel x : Nat} (hle : n.sqrt ≤ x) (hdist : x - n.sqrt < 2 ^ fuel) :
    isqrtLoop n fuel x = n.sqrt := by
  induction fuel generalizing x with
  | zero =>
    have hx : x = n.sqrt := by omega
    exact hx
  | succ fuel ih =>
    rw [isqrtLoop_succ]
    rcases hle.eq_or_lt with rfl | hlt
    · exact if_pos (sqrt_le_midpoint_sqrt n)
    · have hhalf := midpoint_le_of_sqrt_lt hlt
      rw [if_neg (by omega)]
      exact ih (sqrt_le_midpoint (by omega)) (by omega)

/-- R134: the 128 passes suffice, as from the seed `n` the distance to the root is below `2^128`. -/
theorem isqrt_eq_sqrt {n : Nat} (hn : n < 2 ^ 128) : isqrt n = n.sqrt :=
  isqrtLoop_eq_sqrt (Nat.sqrt_le_self n) ((Nat.sub_le n _).trans_lt hn)

/-! ### Rounding (R132) -/

/-- `r` is the natural number nearest to `√n`: `√n` lies between `r - 1/2` and `r + 1/2`, the squares of
which are a quarter above `r * r - r` and `r * r + r`. -/
def IsNearestRoot (r n : Nat) : Prop := n ≤ r * r + r ∧ (r = 0 ∨ r * r < n + r)

theorem isNearestRoot_roundRoot_sqrt (n : Nat) : IsNearestRoot (roundRoot n n.sqrt) n := by
  have hle : n.sqrt * n.sqrt ≤ n := Nat.sqrt_le n
  have hadd : n ≤ n.sqrt * n.sqrt + n.sqrt + n.sqrt := Nat.sqrt_le_add n
  unfold roundRoot IsNearestRoot
  split
  case isTrue hup =>
    have hsq : (n.sqrt + 1) * (n.sqrt + 1) = n.sqrt * n.sqrt + n.sqrt + n.sqrt + 1 := by ring
    omega
  case isFalse hdown => omega

/-- The nearest root of a radicand of this block is far below the largest word. -/
theorem lt_of_isNearestRoot {r n : Nat} (h : IsNearestRoot r n) (hn : n < 2 ^ 123) : r < 2 ^ 62 := by
  obtain ⟨-, rfl | hlow⟩ := h
  · positivity
  · by_contra! hbig
    nlinarith

/-! ### The square root at a scale (R130) -/

theorem fxSqrt_of_neg (s : Nat) {v : Int} (hv : v < 0) : fxSqrt s v = .error .negativeSquareRoot := if_pos hv

/-- The radicand `n` of R130. -/
def radicand (s : Nat) (v : Int) : Nat := (v * p10 s).toNat

theorem radicand_cast (s : Nat) {v : Int} (hv : 0 ≤ v) : (radicand s v : Int) = v * p10 s :=
  Int.toNat_of_nonneg (mul_nonneg hv (p10_pos s).le)

theorem radicand_lt {s : Nat} (hs : s ≤ 18) {v : Int} (hv : 0 ≤ v) (hfit : Fits v) :
    radicand s v < 2 ^ 123 := by
  zify
  rw [radicand_cast s hv]
  calc v * p10 s ≤ 9223372036854775807 * 1000000000000000000 :=
        mul_le_mul ((fits_iff v).mp hfit).2 (p10_le s hs) (p10_pos s).le (by norm_num)
    _ < 2 ^ 123 := by norm_num

/-- The special case for zero gives what the general rule gives. -/
theorem fxSqrt_eq_roundRoot {s : Nat} (hs : s ≤ 18) {v : Int} (hv : 0 ≤ v) (hfit : Fits v) :
    fxSqrt s v = .ok (roundRoot (radicand s v) (radicand s v).sqrt : Nat) := by
  rcases hv.eq_or_lt with rfl | hpos
  · simp [fxSqrt, radicand, roundRoot]
  · have hn : radicand s v < 2 ^ 128 := (radicand_lt hs hv hfit).trans (by norm_num)
    rw [← isqrt_eq_sqrt hn]
    exact (if_neg hv.not_gt).trans (if_neg hpos.ne')

/-- The square root of a non-negative word at a scale of the block is the nearest one, and is a word. -/
theorem exists_fxSqrt_eq_ok {s : Nat} (hs : s ≤ 18) {v : Int} (hv : 0 ≤ v) (hfit : Fits v) :
    ∃ r : Nat, fxSqrt s v = .ok r ∧ Fits r ∧ IsNearestRoot r (radicand s v) := by
  have hnear := isNearestRoot_roundRoot_sqrt (radicand s v)
  have hlt := lt_of_isNearestRoot hnear (radicand_lt hs hv hfit)
  refine ⟨_, fxSqrt_eq_roundRoot hs hv hfit, ?fits, hnear⟩
  case fits =>
    rw [fits_iff]
    omega

end Sys2Proof.Machine

/-! ### The obligations of 44_sqrt.md -/

section
open Sys2Proof Sys2Proof.Machine

/-- Settles O41. -/
theorem sqrtIsNearest : Obligations.SqrtIsNearest := by
  intro a s
  refine ⟨fun hneg => exec_of_error (i := .sqrt a) (fxSqrt_of_neg s.inst.F hneg), fun hnonneg => ?root⟩
  case root =>
    obtain ⟨r, hr, hfit, hupper, hlower⟩ := exists_fxSqrt_eq_ok s.inst.F_le_18 hnonneg (fits_signed a)
    obtain ⟨y, hexec, hy⟩ := exists_answered_of_fits (i := .sqrt a) (s := s) hr hfit
    have hradicand : (radicand s.inst.F (signed a) : Int) = a.toInt * 10 ^ s.inst.F :=
      p10_eq s.inst.F ▸ radicand_cast s.inst.F hnonneg
    zify at hupper hlower
    refine ⟨y, hexec, ?nearest⟩
    case nearest =>
      rw [hy, ← hradicand]
      exact ⟨r.cast_nonneg, hupper,
        hlower.imp (fun hzero => BitVec.eq_of_toInt_eq (hy.trans hzero)) sub_lt_iff_lt_add.mpr⟩

/-- Settles O42: below `2^123`, and up to `2^128`, the loop delivers `Nat.sqrt`. -/
theorem newtonFindsFloorRoot : Obligations.NewtonFindsFloorRoot := by
  intro n _ hn
  rw [isqrt_eq_sqrt (hn.trans (by norm_num))]
  exact ⟨Nat.sqrt_le n, Nat.lt_succ_sqrt n⟩

end
end

section
/-! PROOFS about 45_factorial.md: the ROM holds the factorials (R141), and the three outcomes of `fx_fact` (R142)
are those of `FACT` (R143) with a saturated product (R144). -/

namespace Sys2Proof.Machine

/-! ### The factorial ROM (R141) -/

theorem romF_eq_map_factorial : romF = (List.range 21).map Nat.factorial := by decide

theorem romF_getD {k : Nat} (hk : k ≤ 20) : romF.getD k 0 = k.factorial := by
  have hlt : k < 21 := by omega
  simp [romF_eq_map_factorial, hlt]

/-! ### The factorial at a scale (R142, R144) -/

/-- The clamp from below never acts on a value that is not negative. -/
theorem sat64_of_nonneg {z : Int} (hz : 0 ≤ z) : sat64 z = min max64 z := by
  have hclamp : min64 ≤ min max64 z := (show min64 ≤ 0 by decide).trans (le_min (by decide) hz)
  rw [sat64_eq_max_min, max_eq_right hclamp]

theorem trem_eq_zero_iff_dvd (n d : Int) : trem n d = 0 ↔ d ∣ n := by
  rw [trem_eq_tmod, Int.dvd_iff_tmod_eq_zero]

theorem fxFact_of_neg_or_not_dvd {s : Nat} {v : Int} (h : v < 0 ∨ ¬ p10 s ∣ v) :
    fxFact s v = .error .negativeOrNonIntegerFactorial :=
  if_pos (h.imp_right (trem_eq_zero_iff_dvd v (p10 s)).not.mpr)

/-- On the integer `k` at scale `s` only the test of the size is left, and the integer part is `k`. -/
theorem fxFact_natCast_mul (s k : Nat) :
    fxFact s (k * p10 s) = if 20 < k then .error .factorialOverflow
      else .ok (sat64 (romF.getD k 0 * p10 s)) := by
  have hpos := p10_pos s
  have hnonneg : 0 ≤ (k : Int) * p10 s := mul_nonneg k.cast_nonneg hpos.le
  have hrem : trem (k * p10 s) (p10 s) = 0 := (trem_eq_zero_iff_dvd _ _).mpr (dvd_mul_left _ _)
  have hquot : tdiv (k * p10 s) (p10 s) = k := Int.mul_tdiv_cancel _ hpos.ne'
  simp [fxFact, hnonneg.not_gt, hrem, hquot]

theorem fxFact_of_gt {s k : Nat} (hk : 20 < k) : fxFact s (k * p10 s) = .error .factorialOverflow :=
  (fxFact_natCast_mul s k).trans (if_pos hk)

theorem fxFact_of_le {s k : Nat} (hk : k ≤ 20) :
    fxFact s (k * p10 s) = .ok (sat64 (k.factorial * p10 s)) := by
  rw [fxFact_natCast_mul, if_neg hk.not_gt, romF_getD hk]

end Sys2Proof.Machine

/-! ### The obligation of 45_factorial.md -/

section
open Sys2Proof Sys2Proof.Machine

/-- Settles O43: `FACT` is `fx_fact` at scale `F`; its product is not negative, so only the clamp from above can act. -/
theorem factIsFactorial : Obligations.FactIsFactorial := by
  intro a s
  rw [← p10_eq]
  refine ⟨fun hbad => exec_of_error (i := .fact a) (fxFact_of_neg_or_not_dvd hbad), fun _ k hk => ?_⟩
  have hresult : resultOf s.inst (.fact a) = fxFact s.inst.F (k * p10 s.inst.F) :=
    congrArg (fxFact s.inst.F) hk
  refine ⟨fun hgt => exec_of_error (hresult.trans (fxFact_of_gt hgt)), fun hle => ?factorial⟩
  case factorial =>
    have hproduct : 0 ≤ (k.factorial : Int) * p10 s.inst.F :=
      mul_nonneg (Nat.cast_nonneg _) (p10_pos _).le
    rw [← sat64_of_nonneg hproduct]
    exact exists_answered_of_fits (hresult.trans (fxFact_of_le hle)) (sat64_mono_fits _)

end
end

section
/-! PROOFS about 46_series_accumulator.md: the exit of the loop of R151 skips only terms that are zero (R152), so
the loop is the fixed count of R156, and its sum is the wrapped sum of the terms of R154. -/

namespace Sys2Proof.Machine

/-! ### The fixed count (R156) -/

theorem fixedCountSum_succ (f : Int → Nat → Int) (count n : Nat) (t s : Int) :
    fixedCountSum f (count + 1) n t s = fixedCountSum f count (n + 1) (f t n) (wrap64 (s + f t n)) := rfl

/-- From the term 0 a step function that keeps it there adds nothing, so a word stays as it is. -/
theorem fixedCountSum_term_zero {f : Int → Nat → Int} (hf : ∀ n, f 0 n = 0) (count n : Nat) {s : Int}
    (hs : Fits s) : fixedCountSum f count n 0 s = s := by
  induction count generalizing n with
  | zero => rfl
  | succ count ih => rw [fixedCountSum_succ, hf, add_zero, wrap64_of_fits hs, ih]

/-- The loop that tests the term and the one that does not take the same passes up to the first term 0, and
from there on neither changes the sum. -/
theorem seriesLoop_eq_fixedCountSum {f : Int → Nat → Int} (hf : ∀ n, f 0 n = 0) (fuel n : Nat) (t : Int)
    {s : Int} (hs : Fits s) : seriesLoop f fuel n t s = fixedCountSum f fuel n t s := by
  induction fuel generalizing n t s with
  | zero => rfl
  | succ fuel ih =>
    rcases eq_or_ne t 0 with rfl | ht
    · rw [seriesLoop_term_zero, fixedCountSum_term_zero hf _ _ hs]
    · rw [seriesLoop_succ f fuel n t s ht, fixedCountSum_succ, ih _ _ (wrap64_fits _)]

theorem series_eq_fixedCountSum {tf : Nat} (htf : tf ≤ 18) {t0 : Int} (ht0 : Fits t0) (m : Int)
    (p q : Nat → Int) :
    series tf t0 (seriesStep tf m p q) = fixedCountSum (seriesStep tf m p q) (maxIter tf) 1 t0 t0 :=
  seriesLoop_eq_fixedCountSum (seriesStep_zero tf htf m p q) _ _ _ ht0

/-! ### The sum of the terms (R151) -/

/-- Wrapping on the way to a sum does not show at its end. -/
theorem wrap64_wrap64_add (a b : Int) : wrap64 (wrap64 a + b) = wrap64 (a + b) := Int.bmod_add_bmod

/-- Term `i` of the series from `t0`: the first is `t0`, and pass `n` makes term `n` from the one before. -/
def seriesTerm (f : Int → Nat → Int) (t0 : Int) : Nat → Int
  | 0 => t0
  | n + 1 => f (seriesTerm f t0 n) (n + 1)

theorem seriesTerm_succ (f : Int → Nat → Int) (t0 : Int) (n : Nat) :
    seriesTerm f t0 (n + 1) = f (seriesTerm f t0 n) (n + 1) := rfl

/-- From term `n` on, the fixed count adds the terms after it. -/
theorem fixedCountSum_seriesTerm (f : Int → Nat → Int) (t0 : Int) (count n : Nat) {s : Int} (hs : Fits s) :
    fixedCountSum f count (n + 1) (seriesTerm f t0 n) s =
      wrap64 (s + ∑ i ∈ Finset.range count, seriesTerm f t0 (n + 1 + i)) := by
  induction count generalizing n s with
  | zero => simpa [fixedCountSum] using (wrap64_of_fits hs).symm
  | succ count ih =>
    have hshift : ∀ i, n + 1 + 1 + i = n + 1 + (i + 1) := by omega
    rw [fixedCountSum_succ, ← seriesTerm_succ f, ih _ (wrap64_fits _), wrap64_wrap64_add,
      Finset.sum_range_succ', add_zero, add_assoc, add_comm (seriesTerm f t0 (n + 1))]
    simp only [hshift]

/-- R151: a series of the block is the wrapped sum of its first `MAXITER + 1` terms. -/
theorem series_eq_wrap64_sum {tf : Nat} (htf : tf ≤ 18) {t0 : Int} (ht0 : Fits t0) (m : Int)
    (p q : Nat → Int) :
    series tf t0 (seriesStep tf m p q) =
      wrap64 (∑ i ∈ Finset.range (maxIter tf + 1), seriesTerm (seriesStep tf m p q) t0 i) := by
  have hterms := fixedCountSum_seriesTerm (seriesStep tf m p q) t0 (maxIter tf) 0 ht0
  simp only [Nat.zero_add, Nat.add_comm 1] at hterms
  rw [series_eq_fixedCountSum htf ht0, Finset.sum_range_succ', add_comm]
  exact hterms

/-! ### The rows of the table (R154) and the caps (R153) -/

section
variable (tf : Nat) (m t : Int) (n : Nat)

/-- The row of the sine, with `m` the negated square, and of the hyperbolic sine. -/
theorem seriesStep_sine : seriesStep tf m unitFactor sineDivisor t (n + 1) =
    rha (fxMul tf t m) ((2 * n + 2) * (2 * n + 3)) := by
  have hdivisor : sineDivisor (n + 1) = (2 * n + 2) * (2 * n + 3) := by
    rw [sineDivisor]; push_cast; ring
  rw [seriesStep, unitFactor, mul_one, hdivisor]

/-- The row of the hyperbolic cosine. -/
theorem seriesStep_cosine : seriesStep tf m unitFactor cosineDivisor t (n + 1) =
    rha (fxMul tf t m) ((2 * n + 2) * (2 * n + 1)) := by
  have hdivisor : cosineDivisor (n + 1) = (2 * n + 2) * (2 * n + 1) := by
    rw [cosineDivisor]; push_cast; ring
  rw [seriesStep, unitFactor, mul_one, hdivisor]

/-- The row of the logarithm. -/
theorem seriesStep_odd : seriesStep tf m oddFactor oddDivisor t (n + 1) =
    rha (fxMul tf t m * (2 * n + 1)) (2 * n + 3) := by
  have hfactor : oddFactor (n + 1) = 2 * n + 1 := by rw [oddFactor]; push_cast; ring
  have hdivisor : oddDivisor (n + 1) = 2 * n + 3 := by rw [oddDivisor]; push_cast; ring
  rw [seriesStep, hfactor, hdivisor]

end

theorem maxIter_tiers (tf : Nat) : (tf ≤ 6 → maxIter tf = 16) ∧ (7 ≤ tf → tf ≤ 12 → maxIter tf = 24) ∧
    (13 ≤ tf → maxIter tf = 40) := by
  unfold maxIter
  split_ifs <;> omega

end Sys2Proof.Machine

/-! ### The obligations of 46_series_accumulator.md -/

section
open Sys2Proof Sys2Proof.Machine

/-- Settles O44: after a term 0 every term is 0 (R152), so the passes that the test skips add nothing. -/
theorem fixedCountGivesSameSum : Obligations.FixedCountGivesSameSum :=
  fun _ _ m p q htf ht0 => series_eq_fixedCountSum htf ht0 m p q

/-- Settles O45: each engine's series is `series` at one row of the table, summed by `series_eq_wrap64_sum`. -/
theorem seriesAreTermSums : Obligations.SeriesAreTermSums := by
  refine ⟨fun tf _ => maxIter_tiers tf, fun tf x htf hx => ⟨?sin, ?sinh, ?cosh, fun k => ?ln⟩⟩
  case sin =>
    exact ⟨seriesTerm (seriesStep tf (fxNeg (fxMul tf x x)) unitFactor sineDivisor) x, rfl,
      fun n => seriesStep_sine tf _ _ n, series_eq_wrap64_sum htf hx _ _ _⟩
  case sinh =>
    exact ⟨seriesTerm (seriesStep tf (fxMul tf x x) unitFactor sineDivisor) x, rfl,
      fun n => seriesStep_sine tf _ _ n, series_eq_wrap64_sum htf hx _ _ _⟩
  case cosh =>
    rw [← p10_eq]
    exact ⟨seriesTerm (seriesStep tf (fxMul tf x x) unitFactor cosineDivisor) (p10 tf), rfl,
      fun n => seriesStep_cosine tf _ _ n, series_eq_wrap64_sum htf (fits_p10 htf) _ _ _⟩
  case ln =>
    refine ⟨seriesTerm (seriesStep tf (fxMul tf x x) oddFactor oddDivisor) x, rfl,
      fun n => seriesStep_odd tf _ _ n, ?_⟩
    rw [lnFromQuotient, series_eq_wrap64_sum htf hx, ln2Word]

end
end

section
/-! PROOFS about 47_trig.md: the range reduction (R161, R162), the end of an engine command (R124), the oddness of
sine (R166) and the engines at the operand 0 (R169, 48_hyperbolic.md R182 to R185). -/

namespace Sys2Proof.Machine

/-! ### Whole turns (R161) -/

theorem dvd_sub_unwind (s : Nat) (a : Int) : tauWord s ∣ a - unwind s a := by
  unfold unwind
  split <;> simp

/-- Taking away the nearest number of turns leaves at most half a turn; an angle within one turn is left. -/
theorem abs_unwind_le {s : Nat} (hs : s ≤ 18) (a : Int) : |unwind s a| ≤ tauWord s := by
  obtain ⟨-, -, htau, -⟩ := constWord_bounds s hs
  unfold unwind
  split
  next =>
    obtain ⟨hhalf, -⟩ := isNearest_rha a htau
    rw [abs_sub_comm]
    have hnonneg := abs_nonneg (rha a (tauWord s) * tauWord s - a)
    omega
  next hwithin => exact abs_le.mpr ⟨by omega, by omega⟩

theorem unwind_of_abs_le {s : Nat} {a : Int} (h : |a| ≤ tauWord s) : unwind s a = a := by
  obtain ⟨hlow, hhigh⟩ := abs_le.mp h
  exact if_neg (by omega)

theorem unwind_neg (s : Nat) (a : Int) : unwind s (-a) = -unwind s a := by
  have hcond : (tauWord s < -a ∨ -a < -tauWord s) ↔ (tauWord s < a ∨ a < -tauWord s) := by omega
  simp only [unwind, hcond, rha_neg]
  split
  · ring
  · rfl

theorem dvd_sub_fold (s : Nat) (r : Int) : tauWord s ∣ r - fold s r := by
  unfold fold
  split
  · simp
  · split <;> simp

/-- Within one turn, one adjustment is enough, as `TAU` is `2 * PI` or one off (R95). -/
theorem abs_fold_le {s : Nat} (hs : s ≤ 18) {r : Int} (hr : |r| ≤ tauWord s) : |fold s r| ≤ piWord s := by
  obtain ⟨hpi, -, -, -, -, -, -, -, hupper, -⟩ := constWord_bounds s hs
  obtain ⟨hlow, hhigh⟩ := abs_le.mp hr
  rw [abs_le]
  unfold fold
  split_ifs <;> omega

theorem fold_of_abs_le {s : Nat} {r : Int} (h : |r| ≤ piWord s) : fold s r = r := by
  obtain ⟨hlow, hhigh⟩ := abs_le.mp h
  rw [fold, if_neg hhigh.not_gt, if_neg hlow.not_gt]

theorem fold_neg {s : Nat} (hs : s ≤ 18) (r : Int) : fold s (-r) = -fold s r := by
  obtain ⟨hpi, -⟩ := constWord_bounds s hs
  unfold fold
  split_ifs <;> omega

/-! ### The normalised angle (R161, R172) -/

theorem dvd_sub_normAngle (s : Nat) (a : Int) : tauWord s ∣ a - normAngle s a := by
  rw [← sub_add_sub_cancel a (unwind s a)]
  exact dvd_add (dvd_sub_unwind s a) (dvd_sub_fold s _)

theorem abs_normAngle_le {s : Nat} (hs : s ≤ 18) (a : Int) : |normAngle s a| ≤ piWord s :=
  abs_fold_le hs (abs_unwind_le hs a)

theorem normAngle_of_abs_le {s : Nat} (hs : s ≤ 18) {a : Int} (h : |a| ≤ piWord s) : normAngle s a = a := by
  obtain ⟨hpi, -, -, -, -, -, -, -, -, hlower, -⟩ := constWord_bounds s hs
  rw [normAngle, unwind_of_abs_le (by omega), fold_of_abs_le h]

theorem normAngle_neg {s : Nat} (hs : s ≤ 18) (a : Int) : normAngle s (-a) = -normAngle s a := by
  rw [normAngle, unwind_neg, fold_neg hs, normAngle]

theorem fits_normAngle {s : Nat} (hs : s ≤ 18) (a : Int) : Fits (normAngle s a) := by
  obtain ⟨-, ⟨-, hpi⟩, -⟩ := constWord_bounds s hs
  exact fits_of_abs_le_max64 ((abs_normAngle_le hs a).trans hpi)

/-! ### The reflected angle (R162) -/

theorem reflect_of_abs_le {s : Nat} {x : Int} (h : |x| ≤ halfPi s) : reflect s x = x := by
  obtain ⟨hlow, hhigh⟩ := abs_le.mp h
  rw [reflect, if_neg hhigh.not_gt, if_neg hlow.not_gt]

theorem reflect_of_gt {s : Nat} {x : Int} (h : halfPi s < x) : reflect s x = piWord s - x := if_pos h

theorem reflect_of_lt {s : Nat} (hs : s ≤ 18) {x : Int} (h : x < -halfPi s) :
    reflect s x = -piWord s - x := by
  obtain ⟨-, -, -, -, hhalfPi, -⟩ := constWord_bounds s hs
  rw [reflect, if_neg (by omega), if_pos h]

/-- `PI` is at most one more than `2 * HALFPI`, and the comparisons are strict. -/
theorem abs_reflect_le {s : Nat} (hs : s ≤ 18) {x : Int} (hx : |x| ≤ piWord s) :
    |reflect s x| ≤ halfPi s := by
  obtain ⟨-, -, -, -, hhalfPi, -, -, -, -, -, -, hupper⟩ := constWord_bounds s hs
  obtain ⟨hlow, hhigh⟩ := abs_le.mp hx
  rw [abs_le]
  unfold reflect
  split_ifs <;> omega

theorem reflect_neg {s : Nat} (hs : s ≤ 18) (x : Int) : reflect s (-x) = -reflect s x := by
  obtain ⟨-, -, -, -, hhalfPi, -⟩ := constWord_bounds s hs
  unfold reflect
  split_ifs <;> omega

theorem fits_of_abs_le_halfPi {s : Nat} (hs : s ≤ 18) {x : Int} (hx : |x| ≤ halfPi s) : Fits x := by
  obtain ⟨-, -, -, -, -, ⟨-, hhalfPi⟩, -⟩ := constWord_bounds s hs
  exact fits_of_abs_le_max64 (hx.trans hhalfPi)

/-- The angle at which the sine of `x` is a series (R162). -/
theorem abs_reducedAngle_le {s : Nat} (hs : s ≤ 18) (x : Int) :
    |reflect s (normAngle s x)| ≤ halfPi s := abs_reflect_le hs (abs_normAngle_le hs x)

theorem fits_sinTf {tf : Nat} (htf : tf ≤ 18) (x : Int) : Fits (sinTf tf x) :=
  fits_series tf _ _ (fits_of_abs_le_halfPi htf (abs_reducedAngle_le htf x))

theorem fits_cosTf {tf : Nat} (htf : tf ≤ 18) (x : Int) : Fits (cosTf tf x) := fits_sinTf htf _

/-! ### The end of an engine command (R124) -/

section
variable {i : Instr} {s : State} {g : Nat → Int → Result} {a : Word}

/-- An engine command whose function gives a word answers that word narrowed to `F`. -/
theorem exists_answered_of_engine {v : Int} (hi : resultOf s.inst i = engine s.inst g a)
    (hg : g s.inst.TF (s.widened a) = .ok v) (hv : Fits v) :
    ∃ y, exec i s = .next (s.answered y) ∧ s.IsNarrowed y v := by
  obtain ⟨y, hexec, hy⟩ := exists_answered_of_fits (hi.trans (engine_of_ok hg)) (fits_narrow hv _ _)
  refine ⟨y, hexec, ?_⟩
  rw [State.IsNarrowed, hy]
  exact isNearest_narrow _ _ _

/-- An engine command whose function is a quotient at scale `TF` raises code 2 exactly at a zero divisor
(R165). -/
theorem exec_of_engine_fxDiv {n d : Int} (hi : resultOf s.inst i = engine s.inst g a)
    (hg : g s.inst.TF (s.widened a) = fxDiv s.inst.TF n d) :
    (d = 0 → exec i s = .next (s.failedWith 2)) ∧
    (d ≠ 0 → ∃ q y, fxDiv s.inst.TF n d = .ok q ∧ exec i s = .next (s.answered y) ∧ s.IsNarrowed y q) := by
  rcases fxDiv_cases s.inst.TF n d with ⟨hzero, herror⟩ | ⟨hne, q, hq, hfit⟩
  · exact ⟨fun _ => exec_of_error (hi.trans (engine_of_error (hg.trans herror))), fun h => absurd hzero h⟩
  · obtain ⟨y, hexec, hnarrow⟩ := exists_answered_of_engine hi (hg.trans hq) hfit
    exact ⟨fun h => absurd h hne, fun _ => ⟨q, y, hq, hexec, hnarrow⟩⟩

end

/-! ### The sine series where no product wraps (R157, R166) -/

/-- A dividend of at most `k` divisors rounds to at most `k`. -/
theorem abs_rha_le_of_abs_le_mul {n d k : Int} (hd : 0 < d) (h : |n| ≤ k * d) : |rha n d| ≤ k := by
  obtain ⟨hnear, -⟩ := isNearest_rha n hd
  have hdist : |rha n d * d| - |n| ≤ |rha n d * d - n| := abs_sub_abs_le_abs_sub _ _
  rw [abs_mul, abs_of_pos hd] at hdist
  by_contra! hlt
  nlinarith

theorem halfPi_le_two_mul_p10 {s : Nat} (hs : s ≤ 18) : halfPi s ≤ 2 * p10 s := by
  have hall : ∀ s ≤ 18, halfPi s ≤ 2 * p10 s := by decide
  exact hall s hs

section
variable {tf : Nat} (htf : tf ≤ 9)
include htf

theorem p10_le_of_le_nine : p10 tf ≤ 1000000000 := (p10_le_p10 htf).trans (by decide)

/-- Words of at most `j` and `k` units of the scale, as the two products of a sine have them, multiply without
wrapping. -/
theorem fxMul_eq_rha_of_abs_le {a b j k : Int} (hj : 0 ≤ j) (hjk : j * k ≤ 8) (ha : |a| ≤ j * p10 tf)
    (hb : |b| ≤ k * p10 tf) :
    fxMul tf a b = rha (a * b) (p10 tf) ∧ |fxMul tf a b| ≤ j * k * p10 tf := by
  have hpos := p10_pos tf
  have hscale := p10_le_of_le_nine htf
  have hproduct : |a * b| ≤ j * k * p10 tf * p10 tf := by
    calc |a * b| = |a| * |b| := abs_mul a b
      _ ≤ j * p10 tf * (k * p10 tf) := mul_le_mul ha hb (abs_nonneg b) (mul_nonneg hj hpos.le)
      _ = j * k * p10 tf * p10 tf := by ring
  have hbound : j * k * p10 tf * p10 tf ≤ 8 * 1000000000 * 1000000000 := by
    have hfactors : j * k * p10 tf ≤ 8 * p10 tf := mul_le_mul_of_nonneg_right hjk hpos.le
    exact mul_le_mul (by omega) hscale hpos.le (by norm_num)
  have heq : fxMul tf a b = rha (a * b) (p10 tf) := fxMul_eq_rha (by simp only [max64]; omega)
  exact ⟨heq, heq ▸ abs_rha_le_of_abs_le_mul hpos hproduct⟩

/-- The multiplier of R162, minus the square of the reduced angle, is at most four units of the scale. -/
theorem abs_negSquare_le {x : Int} (hx : |x| ≤ 2 * p10 tf) : |fxNeg (fxMul tf x x)| ≤ 4 * p10 tf := by
  obtain ⟨-, hsquare⟩ := fxMul_eq_rha_of_abs_le htf (by norm_num) (by norm_num) hx hx
  have hscale := p10_le_of_le_nine htf
  rw [← abs_neg] at hsquare
  rwa [fxNeg, wrap64_of_fits (fits_of_abs_le_max64 (by simp only [max64]; omega))]

theorem fxMul_neg_left {a b : Int} (ha : |a| ≤ 2 * p10 tf) (hb : |b| ≤ 4 * p10 tf) :
    fxMul tf (-a) b = -fxMul tf a b := by
  obtain ⟨heq, -⟩ := fxMul_eq_rha_of_abs_le htf (by norm_num) (by norm_num) ha hb
  obtain ⟨hneg, -⟩ :=
    fxMul_eq_rha_of_abs_le htf (by norm_num) (by norm_num) ((abs_neg a).trans_le ha) hb
  rw [hneg, heq, neg_mul, rha_neg]

end

/-- A square has no sign, whatever wraps in it. -/
theorem fxMul_neg_neg (s : Nat) (a b : Int) : fxMul s (-a) (-b) = fxMul s a b := by
  rw [fxMul, neg_mul_neg, fxMul]

/-- Term `n` of the sine series at the reduced angle `x` (R162). -/
def sineTerm (tf : Nat) (x : Int) : Nat → Int :=
  seriesTerm (seriesStep tf (fxNeg (fxMul tf x x)) unitFactor sineDivisor) x

theorem sineTerm_succ (tf : Nat) (x : Int) (n : Nat) : sineTerm tf x (n + 1) =
    rha (fxMul tf (sineTerm tf x n) (fxNeg (fxMul tf x x))) ((2 * n + 2) * (2 * n + 3)) :=
  seriesStep_sine tf _ _ n

theorem sinSeries_eq_wrap64_sum {tf : Nat} (htf : tf ≤ 18) {x : Int} (hx : Fits x) :
    sinSeries tf x = wrap64 (∑ i ∈ Finset.range (maxIter tf + 1), sineTerm tf x i) :=
  series_eq_wrap64_sum htf hx _ _ _

theorem maxIter_le (tf : Nat) : maxIter tf ≤ 40 := by
  unfold maxIter
  split_ifs <;> omega

section
variable {tf : Nat} (htf : tf ≤ 9) {x : Int} (hx : |x| ≤ 2 * p10 tf)
include htf hx

/-- No term outgrows the bound on the first: the product is at most four times it, and the divisor is at least
6. -/
theorem abs_sineTerm_le (n : Nat) : |sineTerm tf x n| ≤ 2 * p10 tf := by
  induction n with
  | zero => exact hx
  | succ n ih =>
    obtain ⟨-, hproduct⟩ := fxMul_eq_rha_of_abs_le htf (by norm_num) (by norm_num) ih (abs_negSquare_le htf hx)
    have hdivisor : (6 : Int) ≤ (2 * n + 2) * (2 * n + 3) := by nlinarith
    have hpos := p10_pos tf
    rw [sineTerm_succ]
    exact abs_rha_le_of_abs_le_mul (by omega) (by nlinarith)

theorem sineTerm_neg (n : Nat) : sineTerm tf (-x) n = -sineTerm tf x n := by
  induction n with
  | zero => rfl
  | succ n ih =>
    rw [sineTerm_succ, sineTerm_succ, ih, fxMul_neg_neg,
      fxMul_neg_left htf (abs_sineTerm_le htf hx n) (abs_negSquare_le htf hx), rha_neg]

/-- At most 41 terms within the bound: the sum does not wrap either. -/
theorem abs_sum_sineTerm_le : |∑ i ∈ Finset.range (maxIter tf + 1), sineTerm tf x i| ≤ max64 := by
  have hscale := p10_le_of_le_nine htf
  have hcount : ((maxIter tf + 1 : Nat) : Int) ≤ 41 := by have := maxIter_le tf; omega
  calc |∑ i ∈ Finset.range (maxIter tf + 1), sineTerm tf x i|
      ≤ ∑ i ∈ Finset.range (maxIter tf + 1), |sineTerm tf x i| := Finset.abs_sum_le_sum_abs _ _
    _ ≤ ∑ _i ∈ Finset.range (maxIter tf + 1), 2 * p10 tf :=
        Finset.sum_le_sum fun i _ => abs_sineTerm_le htf hx i
    _ = (maxIter tf + 1 : Nat) * (2 * p10 tf) := by simp
    _ ≤ 41 * (2 * 1000000000) := mul_le_mul hcount (by omega) (by have := p10_pos tf; omega) (by norm_num)
    _ ≤ max64 := by decide

theorem sinSeries_neg : sinSeries tf (-x) = -sinSeries tf x := by
  have hsum := abs_sum_sineTerm_le htf hx
  have hscale := p10_le_of_le_nine htf
  have hxmax : |x| ≤ max64 := by simp only [max64]; omega
  rw [sinSeries_eq_wrap64_sum (by omega) (fits_of_abs_le_max64 hxmax),
    sinSeries_eq_wrap64_sum (by omega) (fits_of_abs_le_max64 ((abs_neg x).trans_le hxmax))]
  simp only [sineTerm_neg htf hx, Finset.sum_neg_distrib]
  rw [wrap64_of_fits (fits_of_abs_le_max64 hsum),
    wrap64_of_fits (fits_of_abs_le_max64 ((abs_neg _).trans_le hsum))]

end

theorem sinTf_neg {tf : Nat} (htf : tf ≤ 9) (x : Int) : sinTf tf (-x) = -sinTf tf x := by
  have hscale : tf ≤ 18 := by omega
  rw [sinTf, normAngle_neg hscale, reflect_neg hscale,
    sinSeries_neg htf ((abs_reducedAngle_le hscale x).trans (halfPi_le_two_mul_p10 hscale)), sinTf]

/-! ### The negated operand (R166) -/

theorem fits_neg {z : Int} (hz : Fits z) (hne : z ≠ min64) : Fits (-z) := by
  simp only [Fits, min64, max64] at *
  omega

/-- `MIN64` is a power of two and no multiple of 10, so no other word widens to it. -/
theorem mul_p10_ne_min64 {v : Int} (hv : v ≠ min64) (k : Nat) : v * p10 k ≠ min64 := by
  cases k with
  | zero => simpa [p10_eq] using hv
  | succ k =>
    have hten : v * p10 (k + 1) = 10 * (v * p10 k) := by rw [p10_eq, p10_eq]; ring
    rw [hten, min64]
    omega

theorem signed_neg {a : Word} (ha : signed a ≠ min64) : signed (-a) = -signed a := by
  rw [← wrap64_signed_neg, wrap64_of_fits (fits_neg (fits_signed a) ha)]

/-- Where widening loses nothing it is odd, as then it is a product. -/
theorem widened_neg {a : Word} {s : State} (ha : signed a ≠ min64) (hexact : s.WidensExactly a) :
    s.widened (-a) = -s.widened a := by
  have hfit : Fits (signed a * p10 (s.inst.TF - s.inst.F)) := by rw [p10_eq]; exact hexact
  rw [State.widened, State.widened, widen, widen, signed_neg ha, neg_mul,
    sat64_of_fits (fits_neg hfit (mul_p10_ne_min64 ha _)), sat64_of_fits hfit]

theorem narrow_neg (s1 s2 : Nat) (v : Int) : narrow s1 s2 (-v) = -narrow s1 s2 v := rha_neg v _

/-! ### The operand 0 (R166, R169, R182 to R185) -/

theorem widened_zero (s : State) : s.widened 0 = 0 := by
  simp [State.widened, widen, signed, sat64_of_fits fits_zero]

theorem narrow_zero (s1 s2 : Nat) : narrow s1 s2 0 = 0 := rha_zero _

/-- Dividing exactly leaves nothing to round. -/
theorem rha_mul_self (q : Int) {d : Int} (hd : 0 < d) : rha (q * d) d = q := by
  obtain ⟨hnear, -⟩ := isNearest_rha (q * d) hd
  have hlow : rha (q * d) d ≤ q := by nlinarith [le_abs_self (rha (q * d) d * d - q * d)]
  have hhigh : q ≤ rha (q * d) d := by nlinarith [neg_abs_le (rha (q * d) d * d - q * d)]
  exact le_antisymm hlow hhigh

theorem narrow_p10 {s1 s2 : Nat} (h : s2 ≤ s1) : narrow s1 s2 (p10 s1) = p10 s2 := by
  have hsplit : p10 s1 = p10 s2 * p10 (s1 - s2) := by
    rw [p10_eq, p10_eq, p10_eq, ← pow_add, Nat.add_sub_cancel' h]
  rw [narrow, hsplit, rha_mul_self _ (p10_pos _)]

theorem fxMul_comm (s : Nat) (a b : Int) : fxMul s a b = fxMul s b a := by
  rw [fxMul, mul_comm, fxMul]

theorem normAngle_zero {s : Nat} (hs : s ≤ 18) : normAngle s 0 = 0 := by
  obtain ⟨hpi, -⟩ := constWord_bounds s hs
  exact normAngle_of_abs_le hs (abs_zero.trans_le hpi.le)

theorem reflect_zero {s : Nat} (hs : s ≤ 18) : reflect s 0 = 0 := by
  obtain ⟨-, -, -, -, hhalfPi, -⟩ := constWord_bounds s hs
  exact reflect_of_abs_le (abs_zero.trans_le hhalfPi.le)

theorem sinTf_zero {tf : Nat} (htf : tf ≤ 18) : sinTf tf 0 = 0 := by
  rw [sinTf, normAngle_zero htf, reflect_zero htf]
  exact seriesLoop_term_zero _ _ _ _

theorem sinhTf_zero (tf : Nat) : sinhTf tf 0 = 0 := seriesLoop_term_zero _ _ _ _

/-- With the square 0 every term after the first, the constant one, is 0. -/
theorem coshTf_zero {tf : Nat} (htf : tf ≤ 18) : coshTf tf 0 = p10 tf := by
  have hzero : ∀ t, fxMul tf t 0 = 0 := fun t => by rw [fxMul_comm, fxMul_zero_left tf htf]
  rw [coshTf, hzero, series_eq_wrap64_sum htf (fits_p10 htf), Finset.sum_range_succ']
  simp only [seriesTerm_succ, seriesStep_cosine, hzero, rha_zero, Finset.sum_const_zero, zero_add]
  exact wrap64_of_fits (fits_p10 htf)

theorem fxDiv_zero_right (s : Nat) (a : Int) : fxDiv s a 0 = .error .divisionByZero := if_pos rfl

/-- The half of the divisor that R105 adds to the dividend 0 is truncated away again. -/
theorem fxDiv_zero_left (s : Nat) {b : Int} (hb : b ≠ 0) (hfit : |b| ≤ max64) : fxDiv s 0 b = .ok 0 := by
  have hhalf : |0 * p10 s| + |b| / 2 ≤ max64 := by
    rw [zero_mul, abs_zero]
    have := abs_nonneg b
    omega
  rw [fxDiv_eq_rha hb hhalf, zero_mul, rha_zero, mul_zero]

theorem tanhTf_zero {tf : Nat} (htf : tf ≤ 18) : tanhTf tf 0 = .ok 0 := by
  have hpos := p10_pos tf
  obtain ⟨-, hmax⟩ := fits_p10 htf
  rw [tanhTf, sinhTf_zero, coshTf_zero htf]
  exact fxDiv_zero_left tf hpos.ne' ((abs_of_pos hpos).trans_le hmax)

section
variable {i : Instr} {s : State} {g : Nat → Int → Result} {v : Int}

/-- An engine command at the operand 0 works on the word 0. -/
theorem exec_of_engine_zero_ok (hi : resultOf s.inst i = engine s.inst g 0) (hg : g s.inst.TF 0 = .ok v) :
    exec i s = .next (s.answered (BitVec.ofInt 64 (narrow s.inst.TF s.inst.F v))) := by
  rw [← widened_zero s] at hg
  exact exec_of_ok (hi.trans (engine_of_ok hg))

theorem exec_of_engine_zero_error (hi : resultOf s.inst i = engine s.inst g 0)
    (hg : g s.inst.TF 0 = .error .divisionByZero) : exec i s = .next (s.failedWith 2) := by
  rw [← widened_zero s] at hg
  exact exec_of_error (hi.trans (engine_of_error hg))

theorem exec_of_engine_zero_zero (hi : resultOf s.inst i = engine s.inst g 0) (hg : g s.inst.TF 0 = .ok 0) :
    exec i s = .next (s.answered 0) := by
  rw [exec_of_engine_zero_ok hi hg, narrow_zero]
  rfl

end

end Sys2Proof.Machine

/-! ### The obligations of 47_trig.md, and the engines at the operand 0 -/

section
open Sys2Proof Sys2Proof.Machine

/-- Settles O46: the normalised angle is in the interval already, so the second `NORM` leaves it. -/
theorem normReducesAngle : Obligations.NormReducesAngle := by
  intro a s
  have hF := s.inst.F_le_18
  obtain ⟨y, hexec, hy⟩ := exists_answered_of_fits (i := .norm a) (s := s) rfl (fits_normAngle hF (signed a))
  have hrange : |y.toInt| ≤ piWord s.inst.F := hy ▸ abs_normAngle_le hF (signed a)
  refine ⟨y, hexec, hrange, hy ▸ dvd_sub_normAngle s.inst.F (signed a), fun hinside => ?inside,
    exec_of_ok_signed (congrArg Except.ok (normAngle_of_abs_le hF hrange))⟩
  case inside => exact BitVec.eq_of_toInt_eq (hy.trans (normAngle_of_abs_le hF hinside))

/-- Settles O47: `x1` is the normalised and `x2` the reflected angle. -/
theorem sinCosComplete : Obligations.SinCosComplete := by
  rintro a s _ rfl
  have hTF := s.inst.TF_le_18
  refine ⟨?widened,
    exists_answered_of_engine (i := .sin a) (g := fun tf x => .ok (sinTf tf x)) rfl rfl (fits_sinTf hTF _),
    exists_answered_of_engine (i := .cos a) (g := fun tf x => .ok (cosTf tf x)) rfl rfl (fits_cosTf hTF _),
    fun _ => rfl, fun x => ?reduced⟩
  case widened =>
    rw [← p10_eq]
    exact sat64_eq_max_min _
  case reduced =>
    exact ⟨normAngle s.inst.TF x, _, abs_normAngle_le hTF x, dvd_sub_normAngle _ x, normAngle_of_abs_le hTF,
      reflect_of_abs_le, reflect_of_gt, reflect_of_lt hTF, abs_reducedAngle_le hTF x, rfl⟩

/-- Settles O48: both functions are quotients at scale `TF`. -/
theorem tanCotDivide : Obligations.TanCotDivide := by
  rintro a s _ _ rfl rfl
  obtain ⟨htanZero, htan⟩ := exec_of_engine_fxDiv (i := .tan a) (s := s) rfl rfl
  obtain ⟨hcotZero, hcot⟩ := exec_of_engine_fxDiv (i := .cot a) (s := s) rfl rfl
  exact ⟨htanZero, htan, hcotZero, hcot⟩

/-- Settles O49: widening, the reduction, the series and narrowing are each odd. -/
theorem sinIsOdd : Obligations.SinIsOdd := by
  intro a s t u hTF ha hexact ht hu
  have hodd : narrow s.inst.TF s.inst.F (sinTf s.inst.TF (s.widened (-a))) =
      -narrow s.inst.TF s.inst.F (sinTf s.inst.TF (s.widened a)) := by
    rw [widened_neg ha hexact, sinTf_neg hTF, narrow_neg]
  rw [exec_of_ok (i := .sin a) (engine_ok _ _ _)] at ht
  rw [exec_of_ok (i := .sin (-a)) (engine_ok _ _ _)] at hu
  injection ht with ht
  injection hu with hu
  rw [← ht, ← hu, State.answered_y, State.answered_y, ← BitVec.ofInt_neg]
  exact congrArg (BitVec.ofInt 64) hodd

/-- Settles O53: the word 0 widens to 0, and there each engine delivers 0, the constant one, or a quotient by 0. -/
theorem engineAtZero : Obligations.EngineAtZero := by
  intro s
  have hTF := s.inst.TF_le_18
  have hsin := sinTf_zero hTF
  have hsinh := sinhTf_zero s.inst.TF
  have hcosh := coshTf_zero hTF
  refine ⟨exec_of_engine_zero_zero (i := .sin 0) (g := fun tf x => .ok (sinTf tf x)) rfl
      (congrArg Except.ok hsin),
    exec_of_engine_zero_error (i := .cot 0) rfl ?cot,
    exec_of_engine_zero_zero (i := .sinh 0) (g := fun tf x => .ok (sinhTf tf x)) rfl
      (congrArg Except.ok hsinh), ?cosh,
    exec_of_engine_zero_zero (i := .tanh 0) rfl (tanhTf_zero hTF),
    exec_of_engine_zero_error (i := .coth 0) rfl ?coth⟩
  case cot => rw [cotTf, hsin, fxDiv_zero_right]
  case coth => rw [cothTf, hsinh, fxDiv_zero_right]
  case cosh =>
    rw [exec_of_engine_zero_ok (i := .cosh 0) (g := fun tf x => .ok (coshTf tf x)) rfl
      (congrArg Except.ok hcosh), narrow_p10 s.inst.F_le_TF]
    exact (exec_of_ok (resultOf_const (k := 1) (by decide) s.inst)).symm

end
end

section
/-! PROOFS about 48_hyperbolic.md: the series of the hyperbolic functions are words (R180, R181), so their commands
complete (R182, R183), and the even one does not see the sign of its operand. -/

namespace Sys2Proof.Machine

theorem fits_sinhTf {tf : Nat} {x : Int} (hx : Fits x) : Fits (sinhTf tf x) := fits_series tf _ _ hx

theorem fits_coshTf {tf : Nat} (htf : tf ≤ 18) (x : Int) : Fits (coshTf tf x) :=
  fits_series tf _ _ (fits_p10 htf)

/-- The series of R181 reads its operand only through the square. -/
theorem coshTf_neg (tf : Nat) (x : Int) : coshTf tf (-x) = coshTf tf x := by
  rw [coshTf, fxMul_neg_neg, coshTf]

theorem fits_widened (s : State) (a : Word) : Fits (s.widened a) := fits_widen _ _ _

end Sys2Proof.Machine

/-! ### The obligations of 48_hyperbolic.md -/

section
open Sys2Proof Sys2Proof.Machine

/-- Settles O50. -/
theorem sinhCoshComplete : Obligations.SinhCoshComplete := fun a s =>
  ⟨exists_answered_of_engine (i := .sinh a) (g := fun tf x => .ok (sinhTf tf x)) rfl rfl
      (fits_sinhTf (fits_widened s a)),
    exists_answered_of_engine (i := .cosh a) (g := fun tf x => .ok (coshTf tf x)) rfl rfl
      (fits_coshTf s.inst.TF_le_18 _)⟩

/-- Settles O51: both functions are quotients at scale `TF`. -/
theorem tanhCothDivide : Obligations.TanhCothDivide := by
  rintro a s _ _ rfl rfl
  obtain ⟨htanhZero, htanh⟩ := exec_of_engine_fxDiv (i := .tanh a) (s := s) rfl rfl
  obtain ⟨hcothZero, hcoth⟩ := exec_of_engine_fxDiv (i := .coth a) (s := s) rfl rfl
  exact ⟨htanhZero, htanh, hcothZero, hcoth⟩

/-- Settles O52: widening is odd, the series even. -/
theorem coshIsEven : Obligations.CoshIsEven := by
  intro a s ha hexact
  have heven : coshTf s.inst.TF (s.widened (-a)) = coshTf s.inst.TF (s.widened a) := by
    rw [widened_neg ha hexact, coshTf_neg]
  have hresult : resultOf s.inst (.cosh (-a)) = resultOf s.inst (.cosh a) :=
    congrArg (fun w => Except.ok (narrow s.inst.TF s.inst.F w)) heven
  rw [exec_eq_conclude, exec_eq_conclude, hresult]

end
end

section
/-! PROOFS about 49_logarithm.md: the range reduction (R190), the logarithm of a positive word (R191), and the
commands that end in a logarithm (R192, R194 to R197), with the code of the first primitive that fails (R198). -/

namespace Sys2Proof.Machine

/-! ### The range reduction (R190) -/

theorem halveLoop_of_le {two x : Int} (h : x ≤ two) (fuel : Nat) (k : Int) :
    halveLoop two fuel x k = (x, k) := by
  cases fuel with
  | zero => rfl
  | succ n => exact if_neg h.not_gt

theorem doubleLoop_of_le {half x : Int} (h : half ≤ x) (fuel : Nat) (k : Int) :
    doubleLoop half fuel x k = (x, k) := by
  cases fuel with
  | zero => rfl
  | succ n => exact if_neg h.not_gt

theorem reduceLn_eq (tf : Nat) (x : Int) : reduceLn tf x =
    doubleLoop (p10 tf / 2) 64 (halveLoop (2 * p10 tf) 64 x 0).1 (halveLoop (2 * p10 tf) 64 x 0).2 := by
  have hhalf : tdiv (p10 tf) 2 = p10 tf / 2 := Int.tdiv_eq_ediv_of_nonneg (p10_pos tf).le
  rw [← hhalf]
  rfl

theorem reduceLn_nonneg (tf : Nat) {x : Int} (hx : 0 ≤ x) : 0 ≤ (reduceLn tf x).1 := by
  obtain ⟨i, hhalve, -⟩ := halveLoop_spec (2 * p10 tf) 64 x 0 hx
  obtain ⟨j, hdouble, -⟩ := doubleLoop_spec (p10 tf / 2) 64 (x / 2 ^ i) (0 + i)
  rw [reduceLn_eq, hhalve, hdouble]
  positivity

/-- The interval `[HALF, TWO]` that a reduced word ends in; `HALF` is 0 at scale 0, so that it is positive is
said too. -/
def IsReduced (tf : Nat) (r : Int) : Prop := p10 tf / 2 ≤ r ∧ r ≤ 2 * p10 tf ∧ 0 < r

/-- A word in the interval already is left as it is. -/
theorem reduceLn_of_isReduced {tf : Nat} {x : Int} (h : IsReduced tf x) : reduceLn tf x = (x, 0) := by
  obtain ⟨hlow, hhigh, -⟩ := h
  rw [reduceLn_eq, halveLoop_of_le hhigh, doubleLoop_of_le hlow]

theorem reduceLn_scale (tf : Nat) : reduceLn tf (p10 tf) = (p10 tf, 0) := by
  have hpos := p10_pos tf
  exact reduceLn_of_isReduced ⟨by omega, by omega, hpos⟩

/-- A word above `TWO` is only halved: the last halving is made of a word above `TWO`, so what it leaves is at
least one, and there is nothing to double. -/
theorem reduceLn_of_gt {tf : Nat} {x : Int} (hx : 2 * p10 tf < x) (hmax : x ≤ max64) :
    ∃ j : Nat, reduceLn tf x = (x / 2 ^ j, (j : Int)) ∧ j ≤ 62 ∧ (∀ i < j, 2 * p10 tf < x / 2 ^ i) ∧
      IsReduced tf (x / 2 ^ j) := by
  have hone := p10_pos tf
  obtain ⟨j, hloop, -, habove, hend⟩ := halveLoop_spec (2 * p10 tf) 64 x 0 (by omega)
  have hj : j ≤ 62 := by
    by_contra! hlt
    have hlast := habove 62 hlt
    simp only [max64] at hmax
    omega
  have hhigh : x / 2 ^ j ≤ 2 * p10 tf := hend (by omega)
  have hlow : p10 tf ≤ x / 2 ^ j := by
    cases j with
    | zero => simp at hhigh; omega
    | succ j =>
      have hlast := habove j (by omega)
      rw [pow_succ, ← Int.ediv_ediv_of_nonneg (by positivity)]
      omega
  refine ⟨j, ?loops, hj, habove, by omega, hhigh, by omega⟩
  case loops => rw [reduceLn_eq, hloop, doubleLoop_of_le (by simp only; omega), zero_add]

/-- A word not above `TWO` is only doubled, and no doubling reaches beyond one. -/
theorem reduceLn_of_le {tf : Nat} (htf : tf ≤ 18) {x : Int} (hpos : 0 < x) (hx : x ≤ 2 * p10 tf) :
    ∃ j : Nat, reduceLn tf x = (x * 2 ^ j, -(j : Int)) ∧ j ≤ 59 ∧ (∀ i < j, x * 2 ^ i < p10 tf / 2) ∧
      IsReduced tf (x * 2 ^ j) := by
  have hone := p10_le tf htf
  obtain ⟨j, hloop, -, hbelow, hend⟩ := doubleLoop_spec (p10 tf / 2) 64 x 0
  have hj : j ≤ 59 := by
    by_contra! hlt
    have hlast := hbelow 59 hlt
    omega
  have hhigh : x * 2 ^ j ≤ 2 * p10 tf := by
    cases j with
    | zero => simpa using hx
    | succ j =>
      have hlast := hbelow j (by omega)
      rw [pow_succ, ← mul_assoc]
      omega
  refine ⟨j, ?loops, hj, hbelow, hend (by omega), hhigh, by positivity⟩
  case loops => rw [reduceLn_eq, halveLoop_of_le hx, hloop, zero_sub]

theorem fits_ediv_two_pow {x : Int} (hpos : 0 < x) (hmax : x ≤ max64) (j : Nat) : Fits (x / 2 ^ j) := by
  have hnonneg : 0 ≤ x / 2 ^ j := Int.ediv_nonneg hpos.le (by positivity)
  have hle : x / 2 ^ j ≤ x := Int.ediv_le_self _ hpos.le
  exact fits_of_abs_le_max64 (by rw [abs_of_nonneg hnonneg]; omega)

/-- A word on the way of the doublings is at most the last one. -/
theorem fits_mul_two_pow {tf : Nat} (htf : tf ≤ 18) {x : Int} (hpos : 0 < x) {i j : Nat} (hij : i ≤ j)
    (hred : IsReduced tf (x * 2 ^ j)) : Fits (x * 2 ^ i) := by
  obtain ⟨-, hhigh, -⟩ := hred
  have hone := p10_le tf htf
  have hle : x * 2 ^ i ≤ x * 2 ^ j :=
    mul_le_mul_of_nonneg_left (pow_le_pow_right₀ (by norm_num) hij) hpos.le
  have hnonneg : 0 ≤ x * 2 ^ i := by positivity
  exact fits_of_abs_le_max64 (by rw [abs_of_nonneg hnonneg]; simp only [max64]; omega)

/-! ### The logarithm of a word (R191) -/

theorem lnTf_of_nonpos (tf : Nat) {x : Int} (hx : x ≤ 0) : lnTf tf x = .error .nonPositiveLogarithm :=
  if_pos hx

/-- The divisor of R191, the reduced word plus one, is positive, so a positive word has a logarithm. -/
theorem exists_lnTf_eq_ok (tf : Nat) {x : Int} (hx : 0 < x) :
    ∃ q, fxDiv tf ((reduceLn tf x).1 - p10 tf) ((reduceLn tf x).1 + p10 tf) = .ok q ∧ Fits q ∧
      lnTf tf x = .ok (lnFromQuotient tf (reduceLn tf x).2 q) := by
  have hone := p10_pos tf
  have hred := reduceLn_nonneg tf hx.le
  rcases fxDiv_cases tf ((reduceLn tf x).1 - p10 tf) ((reduceLn tf x).1 + p10 tf) with
    ⟨hzero, -⟩ | ⟨-, q, hq, hfit⟩
  · omega
  · refine ⟨q, hq, hfit, ?_⟩
    rw [lnTf, if_neg hx.not_ge]
    simp only [hq]
    rfl

theorem fits_lnFromQuotient (tf : Nat) (k y : Int) : Fits (lnFromQuotient tf k y) := wrap64_fits _

theorem exists_lnTf_fits (tf : Nat) {x : Int} (hx : 0 < x) : ∃ l, lnTf tf x = .ok l ∧ Fits l := by
  obtain ⟨q, -, -, hl⟩ := exists_lnTf_eq_ok tf hx
  exact ⟨_, hl, fits_lnFromQuotient tf _ q⟩

/-- One is in the interval already, its quotient is 0, and the series from 0 is 0. -/
theorem lnTf_scale {tf : Nat} (htf : tf ≤ 18) : lnTf tf (p10 tf) = .ok 0 := by
  have hpos := p10_pos tf
  have hone := p10_le tf htf
  have hdiv : fxDiv tf (p10 tf - p10 tf) (p10 tf + p10 tf) = .ok 0 := by
    rw [sub_self]
    exact fxDiv_zero_left tf (by omega) (by rw [abs_of_pos (by omega)]; simp only [max64]; omega)
  obtain ⟨q, hq, -, hl⟩ := exists_lnTf_eq_ok tf hpos
  rw [reduceLn_scale, hdiv] at hq
  cases hq
  rw [hl, reduceLn_scale, lnFromQuotient, series, seriesLoop_term_zero]
  simp [wrap64_of_fits fits_zero]

/-! ### The operand at the working precision (R124) -/

theorem p10_mul_p10_sub {j k : Nat} (h : j ≤ k) : p10 j * p10 (k - j) = p10 k := by
  rw [p10_eq, p10_eq, p10_eq, ← pow_add, Nat.add_sub_cancel' h]

section
variable {s : State} {a : Word}

theorem widened_pos (ha : 0 < signed a) : 0 < s.widened a :=
  (sat64_sign _).1 (mul_pos ha (p10_pos _))

/-- An operand of magnitude at most one is widened exactly. -/
theorem widened_of_abs_le (ha : |signed a| ≤ p10 s.inst.F) :
    s.widened a = signed a * p10 (s.inst.TF - s.inst.F) := by
  have hpos := p10_pos (s.inst.TF - s.inst.F)
  have hle : |signed a * p10 (s.inst.TF - s.inst.F)| ≤ p10 s.inst.TF := by
    rw [abs_mul, abs_of_pos hpos, ← p10_mul_p10_sub s.inst.F_le_TF]
    exact mul_le_mul_of_nonneg_right ha hpos.le
  exact sat64_of_fits (fits_of_abs_le_max64 (hle.trans (fits_p10 s.inst.TF_le_18).2))

theorem widened_scale (ha : signed a = p10 s.inst.F) : s.widened a = p10 s.inst.TF := by
  rw [widened_of_abs_le (by rw [ha, abs_of_pos (p10_pos _)]), ha, p10_mul_p10_sub s.inst.F_le_TF]

theorem abs_widened_lt (ha : |signed a| < p10 s.inst.F) : |s.widened a| < p10 s.inst.TF := by
  have hpos := p10_pos (s.inst.TF - s.inst.F)
  rw [widened_of_abs_le ha.le, abs_mul, abs_of_pos hpos, ← p10_mul_p10_sub s.inst.F_le_TF]
  exact mul_lt_mul_of_pos_right ha hpos

end

/-! ### The commands that end in a logarithm (R192 to R198) -/

theorem resultOf_ln_of_nonpos (p : Instance) {a : Word} (ha : signed a ≤ 0) :
    resultOf p (.ln a) = .error .nonPositiveLogarithm := if_pos ha

theorem resultOf_ln_of_pos (p : Instance) {a : Word} (ha : 0 < signed a) :
    resultOf p (.ln a) = engine p lnTf a := if_neg ha.not_ge

section
variable {i : Instr} {s : State} {g : Nat → Int → Result} {a : Word}

/-- An engine command whose function raises ends with the code of the condition. -/
theorem exec_of_engine_error {e : ErrorCondition} (hi : resultOf s.inst i = engine s.inst g a)
    (hg : g s.inst.TF (s.widened a) = .error e) : exec i s = .next (s.failedWith e.code) :=
  exec_of_error (hi.trans (engine_of_error hg))

/-- The outcomes of an engine command that is the logarithm of a sum with the root of the word `w` (R194,
R195). -/
theorem exec_of_engine_sqrt_bind_lnTf {w : Int} {f : Int → Int} (hw : Fits w)
    (hi : resultOf s.inst i = engine s.inst g a)
    (hg : g s.inst.TF (s.widened a) = (fxSqrt s.inst.TF w).bind fun r => lnTf s.inst.TF (f r)) :
    (w < 0 → exec i s = .next (s.failedWith 3)) ∧
    (0 ≤ w → ∃ r, fxSqrt s.inst.TF w = .ok r ∧
      (f r ≤ 0 → exec i s = .next (s.failedWith 6)) ∧
      (0 < f r → ∃ l y, lnTf s.inst.TF (f r) = .ok l ∧ exec i s = .next (s.answered y) ∧
        s.IsNarrowed y l)) := by
  refine ⟨fun hneg => ?radicand, fun hnonneg => ?root⟩
  case radicand =>
    rw [fxSqrt_of_neg _ hneg] at hg
    exact exec_of_engine_error hi hg
  case root =>
    obtain ⟨r, hr, -⟩ := exists_fxSqrt_eq_ok s.inst.TF_le_18 hnonneg hw
    rw [hr] at hg
    refine ⟨r, hr, fun hsum => ?nonpos, fun hsum => ?logarithm⟩
    case nonpos => exact exec_of_engine_error hi (hg.trans (lnTf_of_nonpos _ hsum))
    case logarithm =>
      obtain ⟨l, hl, hfit⟩ := exists_lnTf_fits s.inst.TF hsum
      obtain ⟨y, hexec, hnarrow⟩ := exists_answered_of_engine hi (hg.trans hl) hfit
      exact ⟨l, y, hl, hexec, hnarrow⟩

theorem halfLn_of_nonpos (tf : Nat) {q : Int} (hq : q ≤ 0) : halfLn tf q = .error .nonPositiveLogarithm := by
  rw [halfLn, lnTf_of_nonpos tf hq]
  rfl

theorem halfLn_of_ok {tf : Nat} {q l : Int} (hl : lnTf tf q = .ok l) : halfLn tf q = .ok (rha l 2) := by
  rw [halfLn, hl]
  rfl

/-- The outcomes of an engine command that is half of the logarithm of a quotient (R196, R197). -/
theorem exec_of_engine_fxDiv_bind_halfLn {n d : Int} (hi : resultOf s.inst i = engine s.inst g a)
    (hg : g s.inst.TF (s.widened a) = (fxDiv s.inst.TF n d).bind (halfLn s.inst.TF)) :
    (d = 0 → exec i s = .next (s.failedWith 2)) ∧
    (d ≠ 0 → ∃ q, fxDiv s.inst.TF n d = .ok q ∧
      (q ≤ 0 → exec i s = .next (s.failedWith 6)) ∧
      (0 < q → ∃ l h y, lnTf s.inst.TF q = .ok l ∧ IsNearest h l 2 ∧ exec i s = .next (s.answered y) ∧
        s.IsNarrowed y h)) := by
  rcases fxDiv_cases s.inst.TF n d with ⟨hzero, herror⟩ | ⟨hne, q, hq, -⟩
  · rw [herror] at hg
    exact ⟨fun _ => exec_of_engine_error hi hg, fun hne => absurd hzero hne⟩
  · rw [hq] at hg
    refine ⟨fun hzero => absurd hzero hne, fun _ => ⟨q, hq, fun hnonpos => ?nonpos, fun hpos => ?half⟩⟩
    case nonpos => exact exec_of_engine_error hi (hg.trans (halfLn_of_nonpos _ hnonpos))
    case half =>
      obtain ⟨l, hl, hfit⟩ := exists_lnTf_fits s.inst.TF hpos
      obtain ⟨y, hexec, hnarrow⟩ := exists_answered_of_engine hi (hg.trans (halfLn_of_ok hl))
        (fits_rha hfit 2 (by norm_num))
      exact ⟨l, rha l 2, y, hl, isNearest_rha l (by norm_num), hexec, hnarrow⟩

end

/-! ### Where the operand alone decides (R195, R196) -/

/-- A quotient of at least a half is rounded to at least one. -/
theorem rha_pos {n d : Int} (hd : 0 < d) (h : d ≤ 2 * n) : 0 < rha n d := by
  rw [rha_of_nonneg (by omega) hd]
  exact Int.le_ediv_of_mul_le (by omega) (by omega)

section
variable {tf : Nat} (htf : tf ≤ 9) {x : Int} (hx : |x| < p10 tf)
include htf hx

/-- Below one the square is below one, so the radicand of R195 is negative. -/
theorem fxSub_square_neg : fxSub (fxMul tf x x) (p10 tf) < 0 := by
  have hscale := p10_le_of_le_nine htf
  have hpos := p10_pos tf
  have hsquare : |x * x| ≤ (p10 tf - 1) * p10 tf := by
    rw [abs_mul]
    exact mul_le_mul (by omega) hx.le (abs_nonneg x) (by omega)
  have hbound : (p10 tf - 1) * p10 tf ≤ 1000000000 * 1000000000 :=
    mul_le_mul (by omega) hscale hpos.le (by norm_num)
  have heq : fxMul tf x x = rha (x * x) (p10 tf) := fxMul_eq_rha (by simp only [max64]; omega)
  obtain ⟨hlow, hhigh⟩ := abs_le.mp (heq ▸ abs_rha_le_of_abs_le_mul hpos hsquare)
  rw [fxSub, wrap64_of_fits ((fits_iff _).mpr (by omega))]
  omega

/-- Inside `(-1, 1)` the divisor of R196 is positive, and the quotient is far enough from 0 not to be rounded to
it. -/
theorem exists_fxDiv_pos : fxSub (p10 tf) x ≠ 0 ∧
    ∃ q, fxDiv tf (fxAdd (p10 tf) x) (fxSub (p10 tf) x) = .ok q ∧ 0 < q := by
  have hscale := p10_le_of_le_nine htf
  obtain ⟨hlow, hhigh⟩ := abs_lt.mp hx
  have hadd : fxAdd (p10 tf) x = p10 tf + x := wrap64_of_fits ((fits_iff _).mpr (by omega))
  have hsub : fxSub (p10 tf) x = p10 tf - x := wrap64_of_fits ((fits_iff _).mpr (by omega))
  have hpos : 0 < p10 tf - x := by omega
  have hdividend : (p10 tf + x) * p10 tf ≤ 2000000000 * 1000000000 :=
    mul_le_mul (by omega) hscale (p10_pos tf).le (by norm_num)
  have hlarge : p10 tf ≤ (p10 tf + x) * p10 tf := le_mul_of_one_le_left (p10_pos tf).le (by omega)
  have hfit : |(p10 tf + x) * p10 tf| + |p10 tf - x| / 2 ≤ max64 := by
    rw [abs_of_pos hpos, abs_of_nonneg (by omega)]
    simp only [max64]
    omega
  rw [hadd, hsub]
  refine ⟨hpos.ne', _, fxDiv_eq_rha hpos.ne' hfit, ?quotient⟩
  case quotient =>
    rw [Int.sign_eq_one_of_pos hpos, one_mul, abs_of_pos hpos]
    exact rha_pos hpos (by omega)

end

end Sys2Proof.Machine

/-! ### The obligations of 49_logarithm.md -/

section
open Sys2Proof Sys2Proof.Machine

/-- Settles O54: a word above `TWO` is only halved, any other only doubled. -/
theorem lnRangeReduction : Obligations.LnRangeReduction := by
  intro tf x r k htf hpos hmax hreduce
  rw [← p10_eq]
  rcases lt_or_ge (2 * p10 tf) x with hgt | hle
  · obtain ⟨j, hj, hcount, habove, hlow, hhigh, hrpos⟩ := reduceLn_of_gt hgt hmax
    obtain ⟨rfl, rfl⟩ := Prod.mk.inj (hj.symm.trans hreduce)
    have hfit := fits_ediv_two_pow hpos hmax
    refine ⟨hlow, hhigh, hrpos, by omega, by omega, fun _ => by simp, fun hk => ?_,
      fun i hi => habove i (by omega), by omega, fun i => ⟨fun _ => hfit i, fun hi => ?_⟩⟩
    · obtain rfl : j = 0 := by omega
      simp
    · obtain rfl : i = 0 := by omega
      simpa using hfit 0
  · obtain ⟨j, hj, hcount, hbelow, hred⟩ := reduceLn_of_le htf hpos hle
    obtain ⟨rfl, rfl⟩ := Prod.mk.inj (hj.symm.trans hreduce)
    have hfit := fits_ediv_two_pow hpos hmax
    have ⟨hlow, hhigh, hrpos⟩ := hred
    refine ⟨hlow, hhigh, hrpos, by omega, by omega, fun hk => ?_, fun _ => by simp, by omega,
      fun i hi => hbelow i (by omega),
      fun i => ⟨fun _ => hfit i, fun hi => fits_mul_two_pow htf hpos (by omega) hred⟩⟩
    obtain rfl : j = 0 := by omega
    simp

/-- Settles O55: code 6 by the test of the operand; a positive operand is widened to a positive word. -/
theorem lnCompletes : Obligations.LnCompletes := by
  rintro a s _ rfl
  rw [← p10_eq, ← p10_eq]
  refine ⟨fun hnonpos => exec_of_error (resultOf_ln_of_nonpos s.inst hnonpos), fun hpos => ?positive,
    fun hone => ?one, fun x r k hx _ hreduce => ?word⟩
  case positive =>
    obtain ⟨l, hl, hfit⟩ := exists_lnTf_fits s.inst.TF (widened_pos (s := s) hpos)
    obtain ⟨y, hexec, hnarrow⟩ := exists_answered_of_engine (resultOf_ln_of_pos s.inst hpos) hl hfit
    exact ⟨l, y, hl, hfit, hexec, hnarrow⟩
  case one =>
    have hpos : 0 < signed a := (p10_pos s.inst.F).trans_eq hone.symm
    have hln : lnTf s.inst.TF (s.widened a) = .ok 0 := by
      rw [widened_scale hone, lnTf_scale s.inst.TF_le_18]
    rw [exec_of_ok ((resultOf_ln_of_pos s.inst hpos).trans (engine_of_ok hln)), narrow_zero]
    rfl
  case word =>
    have hq := exists_lnTf_eq_ok s.inst.TF hx
    rwa [hreduce] at hq

/-- Settles O56: both are the logarithm of a sum with a root. -/
theorem asinhAcoshOutcomes : Obligations.AsinhAcoshOutcomes := by
  rintro a s _ _ _ _ rfl rfl rfl rfl
  rw [← p10_eq]
  obtain ⟨hasinhNeg, hasinh⟩ :=
    exec_of_engine_sqrt_bind_lnTf (i := .asinh a) (s := s) (wrap64_fits _) rfl rfl
  obtain ⟨hacoshNeg, hacosh⟩ :=
    exec_of_engine_sqrt_bind_lnTf (i := .acosh a) (s := s) (wrap64_fits _) rfl rfl
  exact ⟨hasinhNeg, hasinh, hacoshNeg, hacosh⟩

/-- Settles O57: both are half of the logarithm of a quotient. -/
theorem atanhAcothOutcomes : Obligations.AtanhAcothOutcomes := by
  rintro a s _ _ _ rfl rfl rfl
  rw [← p10_eq]
  obtain ⟨hatanhZero, hatanh⟩ := exec_of_engine_fxDiv_bind_halfLn (i := .atanh a) (s := s) rfl rfl
  obtain ⟨hacothZero, hacoth⟩ := exec_of_engine_fxDiv_bind_halfLn (i := .acoth a) (s := s) rfl rfl
  exact ⟨hatanhZero, hatanh, hacothZero, hacoth⟩

/-- Settles O58: the first primitive of O56 and O57 that fails, or that none does, is seen from the operand. -/
theorem inverseDomainEdges : Obligations.InverseDomainEdges := by
  intro a s htf
  rw [← p10_eq]
  obtain ⟨-, -, hradicand, -⟩ := asinhAcoshOutcomes a s _ _ _ _ rfl rfl rfl rfl
  obtain ⟨hatanhZero, hatanh, hacothZero, -⟩ := atanhAcothOutcomes a s _ _ _ rfl rfl rfl
  rw [← p10_eq] at *
  refine ⟨fun hbelow => hradicand (fxSub_square_neg htf (abs_widened_lt hbelow)), fun hone => ?one,
    fun hbelow => ?inside⟩
  case one =>
    have hzero : fxSub (p10 s.inst.TF) (p10 s.inst.TF) = 0 := by
      rw [fxSub, sub_self, wrap64_of_fits fits_zero]
    rw [widened_scale hone] at hatanhZero hacothZero
    exact ⟨hatanhZero hzero, hacothZero hzero⟩
  case inside =>
    obtain ⟨hne, q, hq, hpos⟩ := exists_fxDiv_pos htf (abs_widened_lt hbelow)
    obtain ⟨q', hq', -, hcompletes⟩ := hatanh hne
    cases hq.symm.trans hq'
    obtain ⟨-, -, y, -, -, hexec, -⟩ := hcompletes hpos
    exact ⟨y, hexec⟩

end
end

section
/-! PROOFS about 60_exceptions.md: the conditions that each command can raise (R210), the frame of a command (R212,
R213), and illegal command words (R211). -/

namespace Sys2Proof.Machine

/-! ### The conditions that a rule can raise (R210) -/

/-- `r` is a word, or raises one of the conditions `es`. -/
def RaisesOnly (es : List ErrorCondition) (r : Result) : Prop := ∀ e, r = .error e → e ∈ es

section
variable {es : List ErrorCondition}

theorem raisesOnly_ok (v : Int) : RaisesOnly es (.ok v) := nofun

theorem raisesOnly_error {e : ErrorCondition} (he : e ∈ es) : RaisesOnly es (.error e) := by
  rintro _ ⟨⟩
  exact he

theorem RaisesOnly.map {r : Result} (h : RaisesOnly es r) (f : Int → Int) : RaisesOnly es (r.map f) := by
  cases r with
  | ok v => exact raisesOnly_ok (f v)
  | error e => exact raisesOnly_error (h e rfl)

theorem RaisesOnly.bind {r : Result} (h : RaisesOnly es r) {f : Int → Result}
    (hf : ∀ v, RaisesOnly es (f v)) : RaisesOnly es (r.bind f) := by
  cases r with
  | ok v => exact hf v
  | error e => exact raisesOnly_error (h e rfl)

theorem RaisesOnly.mono {ds : List ErrorCondition} {r : Result} (h : RaisesOnly ds r) (hsub : ds ⊆ es) :
    RaisesOnly es r := fun e he => hsub (h e he)

theorem raisesOnly_engine {p : Instance} {g : Nat → Int → Result} (hg : ∀ tf x, RaisesOnly es (g tf x))
    (a : Word) : RaisesOnly es (engine p g a) := (hg _ _).map _

end

theorem raisesOnly_fromFlt (f : Nat) (a : Word) : RaisesOnly [.invalidFloatInput] (fromFlt f a) := by
  unfold fromFlt
  split_ifs
  · exact raisesOnly_error (by decide)
  all_goals exact raisesOnly_ok _

theorem raisesOnly_fxDiv (s : Nat) (a b : Int) : RaisesOnly [.divisionByZero] (fxDiv s a b) := by
  unfold fxDiv
  split
  · exact raisesOnly_error (by decide)
  · exact raisesOnly_ok _

theorem raisesOnly_fxRem (a b : Int) : RaisesOnly [.divisionByZero] (fxRem a b) := by
  unfold fxRem
  split
  · exact raisesOnly_error (by decide)
  · exact raisesOnly_ok _

theorem raisesOnly_fxSqrt (s : Nat) (v : Int) : RaisesOnly [.negativeSquareRoot] (fxSqrt s v) := by
  unfold fxSqrt
  split_ifs
  · exact raisesOnly_error (by decide)
  all_goals exact raisesOnly_ok _

theorem raisesOnly_fxFact (s : Nat) (v : Int) :
    RaisesOnly [.negativeOrNonIntegerFactorial, .factorialOverflow] (fxFact s v) := by
  unfold fxFact
  split_ifs
  · exact raisesOnly_error (by decide)
  · exact raisesOnly_error (by decide)
  · exact raisesOnly_ok _

/-- The divisor of R191 is never 0 (`exists_lnTf_eq_ok`), so only the test of the operand raises. -/
theorem raisesOnly_lnTf (tf : Nat) (x : Int) : RaisesOnly [.nonPositiveLogarithm] (lnTf tf x) := by
  rcases le_or_gt x 0 with hx | hx
  · rw [lnTf_of_nonpos tf hx]
    exact raisesOnly_error (by decide)
  · obtain ⟨q, -, -, hln⟩ := exists_lnTf_eq_ok tf hx
    rw [hln]
    exact raisesOnly_ok _

theorem raisesOnly_sqrt_bind_lnTf (tf : Nat) (w : Int) (f : Int → Int) :
    RaisesOnly [.negativeSquareRoot, .nonPositiveLogarithm] ((fxSqrt tf w).bind fun r => lnTf tf (f r)) :=
  ((raisesOnly_fxSqrt tf w).mono (by simp)).bind fun _ => (raisesOnly_lnTf tf _).mono (by simp)

theorem raisesOnly_fxDiv_bind_halfLn (tf : Nat) (n d : Int) :
    RaisesOnly [.divisionByZero, .nonPositiveLogarithm] ((fxDiv tf n d).bind (halfLn tf)) :=
  ((raisesOnly_fxDiv tf n d).mono (by simp)).bind fun q =>
    ((raisesOnly_lnTf tf q).map fun l => rha l 2).mono (by simp)

theorem raisesOnly_asinhTf (tf : Nat) (x : Int) :
    RaisesOnly [.negativeSquareRoot, .nonPositiveLogarithm] (asinhTf tf x) :=
  raisesOnly_sqrt_bind_lnTf tf _ (fxAdd x)

theorem raisesOnly_acoshTf (tf : Nat) (x : Int) :
    RaisesOnly [.negativeSquareRoot, .nonPositiveLogarithm] (acoshTf tf x) :=
  raisesOnly_sqrt_bind_lnTf tf _ (fxAdd x)

theorem raisesOnly_atanhTf (tf : Nat) (x : Int) :
    RaisesOnly [.divisionByZero, .nonPositiveLogarithm] (atanhTf tf x) :=
  raisesOnly_fxDiv_bind_halfLn tf _ _

theorem raisesOnly_acothTf (tf : Nat) (x : Int) :
    RaisesOnly [.divisionByZero, .nonPositiveLogarithm] (acothTf tf x) :=
  raisesOnly_fxDiv_bind_halfLn tf _ _

/-- The conditions that R210 and R214 list for each command, but for the illegal command word. -/
def conditionsOf : Mnemonic → List ErrorCondition
  | .FROMFLT => [.invalidFloatInput]
  | .DIV | .REM | .TAN | .COT | .TANH | .COTH => [.divisionByZero]
  | .INCF | .DECF => [.precisionDirectionViolation]
  | .SQRT => [.negativeSquareRoot]
  | .FACT => [.negativeOrNonIntegerFactorial, .factorialOverflow]
  | .LN => [.nonPositiveLogarithm]
  | .ASINH | .ACOSH => [.negativeSquareRoot, .nonPositiveLogarithm]
  | .ATANH | .ACOTH => [.divisionByZero, .nonPositiveLogarithm]
  | _ => []

/-- A target scale in range leaves only the direction to be checked (R122, R123). -/
theorem raisesOnly_scaleChange {k : Nat} (hk : k ≤ 18) (wrong : Prop) [Decidable wrong] (v : Int) :
    RaisesOnly [.precisionDirectionViolation] (if 18 < k then .error .illegalCommand
      else if wrong then .error .precisionDirectionViolation else .ok v) := by
  rw [if_neg hk.not_gt]
  split
  · exact raisesOnly_error (by decide)
  · exact raisesOnly_ok _

theorem raisesOnly_resultOf (p : Instance) {i : Instr} (hwf : i.wellFormed = true) :
    RaisesOnly (conditionsOf i.parts.1) (resultOf p i) := by
  cases i with
  | fromflt a => exact raisesOnly_fromFlt _ a
  | const k =>
    rw [resultOf_const (of_decide_eq_true hwf)]
    exact raisesOnly_ok _
  | div a b => exact raisesOnly_fxDiv _ _ _
  | rem a b => exact raisesOnly_fxRem _ _
  | incf k a => exact raisesOnly_scaleChange (of_decide_eq_true hwf) _ _
  | decf k a => exact raisesOnly_scaleChange (of_decide_eq_true hwf) _ _
  | sqrt a => exact raisesOnly_fxSqrt _ _
  | fact a => exact raisesOnly_fxFact _ _
  | tan a => exact raisesOnly_engine (fun _ _ => raisesOnly_fxDiv _ _ _) a
  | cot a => exact raisesOnly_engine (fun _ _ => raisesOnly_fxDiv _ _ _) a
  | tanh a => exact raisesOnly_engine (fun _ _ => raisesOnly_fxDiv _ _ _) a
  | coth a => exact raisesOnly_engine (fun _ _ => raisesOnly_fxDiv _ _ _) a
  | ln a =>
    rcases le_or_gt (signed a) 0 with ha | ha
    · rw [resultOf_ln_of_nonpos p ha]
      exact raisesOnly_error List.mem_cons_self
    · rw [resultOf_ln_of_pos p ha]
      exact raisesOnly_engine raisesOnly_lnTf a
  | asinh a => exact raisesOnly_engine raisesOnly_asinhTf a
  | acosh a => exact raisesOnly_engine raisesOnly_acoshTf a
  | atanh a => exact raisesOnly_engine raisesOnly_atanhTf a
  | acoth a => exact raisesOnly_engine raisesOnly_acothTf a
  | sin a | cos a | sinh a | cosh a => exact raisesOnly_engine (fun _ _ => raisesOnly_ok _) a
  | _ => exact raisesOnly_ok _

/-- After a command `ERR` holds 0 or the code of a condition that its rule can raise. -/
theorem err_mem_of_raisesOnly {i : Instr} {s t : State} {es : List ErrorCondition}
    (h : RaisesOnly es (resultOf s.inst i)) (hexec : exec i s = .next t) :
    t.err.toNat ∈ 0 :: es.map fun e => e.code.toNat := by
  rw [exec_eq_conclude] at hexec
  rcases conclude_cases _ s t hexec with ⟨v, -, rfl⟩ | ⟨e, he, rfl⟩
  · exact List.mem_cons_self
  · exact List.mem_cons_of_mem _ (List.mem_map_of_mem (h e he))

/-! ### The step that completes a command (R33) -/

/-- A step without reset in which the latency runs out runs the command in flight or presented. -/
theorem step_of_elapsed {s : State} {c : Command} {t : Tick} {ts : List Tick} (hts : s.ticks = t :: ts)
    (hr : t.rst = false) (hel : t.elapsed = true)
    (hfrom : s.inFlight = some c ∨ (s.inFlight = none ∧ t.cmdValid = true ∧ t.command = c)) :
    step s = runCommand c (s.holding c ts) := by
  have htick := State.tick_of_cons s t ts hts
  subst htick
  rw [step_of_taken hr (taken_of_busy_or_presented hfrom), if_pos hel, hts]
  rfl

end Sys2Proof.Machine

/-! ### The obligations of 60_exceptions.md -/

section
open Sys2Proof Sys2Proof.Machine

/-- Settles O20: a completion with a word clears `ERR`; one in error does not touch `Y`. -/
theorem execFrame : Obligations.ExecFrame := by
  intro i s
  rcases exec_cases i s with ⟨v, -, hexec⟩ | ⟨e, -, hexec⟩
  · exact ⟨_, hexec, rfl, rfl, rfl, rfl, fun herr => absurd rfl herr, Nat.zero_le _⟩
  · exact ⟨_, hexec, rfl, rfl, rfl, rfl, fun _ => rfl, code_toNat_le e⟩

/-- Settles O21: the conditions that each rule can raise are those of `conditionsOf`, the codes of which are
listed. -/
theorem errorCodesPerCommand : Obligations.ErrorCodesPerCommand := by
  intro i s t hwf hexec
  have hmem := err_mem_of_raisesOnly (raisesOnly_resultOf s.inst hwf) hexec
  generalize i.parts.1 = m at hmem ⊢
  cases m <;> exact hmem

/-- Settles O8: the word presented is taken, and running an illegal command is a completion with code 8. -/
theorem illegalCommandSetsCode8 : Obligations.IllegalCommandSetsCode8 := by
  intro s t ts e hts hr hel hvalid hidle hdec
  rw [step_of_elapsed hts hr hel (.inr ⟨hidle, hvalid, rfl⟩), runCommand_of_illegal hdec]
  rfl

end
end

section
/-! PROOFS about 70_reset_and_hazards.md and 93_implementation_defined.md: reset (R240), the completion of a command
in flight (R247), the invariant of the block (U7), and that nothing stops it. -/

namespace Sys2Proof.Machine

/-! ### The invariant of the block (U7, R33) -/

/-- With `rsp_valid` low there is only `ERR` to be checked. -/
theorem blockInv_of_rspValid_false {s : State} (herr : s.err.toNat ≤ 8) (hrsp : s.rspValid = false) :
    BlockInv s := ⟨herr, by simp [hrsp]⟩

theorem blockInv_answered (s : State) (w : Word) : BlockInv (s.answered w) := by
  simp [BlockInv]

theorem blockInv_failedWith (s : State) (e : ErrorCondition) : BlockInv (s.failedWith e.code) :=
  ⟨code_toNat_le e, fun _ => rfl⟩

/-- A completion establishes the invariant, whatever held before. -/
theorem blockInv_of_runCommand {c : Command} {s t : State} (h : runCommand c s = .next t) : BlockInv t := by
  rcases runCommand_cases c s.inst with ⟨w, hrun⟩ | ⟨e, hrun⟩
  · cases (hrun s rfl).symm.trans h
    exact blockInv_answered s w
  · cases (hrun s rfl).symm.trans h
    exact blockInv_failedWith s e

/-- Waiting, idle or with a command in flight, keeps `ERR` and ends the pulse of `rsp_valid`. -/
theorem blockInv_advance_accept {s : State} (h : BlockInv s) : BlockInv (s.advance.accept s.tick) := by
  obtain ⟨herr, -⟩ := h
  exact blockInv_of_rspValid_false (by simpa using herr) (by simp)

end Sys2Proof.Machine

/-! ### The obligations of 70_reset_and_hazards.md and 93_implementation_defined.md -/

section
open Sys2Proof Sys2Proof.Machine

/-- Settles O10: a reset and a completion establish the invariant, and waiting keeps it. -/
theorem stepKeepsInv : Obligations.StepKeepsInv := by
  intro s t hinv hstep
  rcases step_cases s with ⟨-, hs⟩ | ⟨-, -, hs⟩ | ⟨c, -, -, -, hs⟩ | ⟨c, -, -, -, hs⟩ <;> rw [hs] at hstep
  case inl =>
    cases hstep
    exact blockInv_resetOf s.inst s.ticks.tail
  case inr.inl =>
    cases hstep
    exact blockInv_advance_accept hinv
  case inr.inr.inl =>
    cases hstep
    exact blockInv_advance_accept hinv
  case inr.inr.inr => exact blockInv_of_runCommand hstep

/-- Settles O17: induction on the waiting steps, each of which holds the command (O16). -/
theorem commandInFlightCompletes : Obligations.CommandInFlightCompletes := by
  intro s c wait t ts hc hts hwait hr hel
  induction wait generalizing s with
  | nil =>
    obtain ⟨u, hu⟩ := exists_runCommand c (s.holding c ts)
    obtain ⟨hresp, hinst, hticks, hidle, hrsp⟩ := runCommand_respond _ _ _ hu
    have hstep : step s = .next u := (step_of_elapsed hts hr hel (.inl hc)).trans hu
    exact ⟨u, run_succ Sys2Proof.core 0 s u hstep, hresp, hidle, hrsp, hticks, hinst⟩
  | cons w wait ih =>
    obtain ⟨⟨hwr, hwel⟩, hrest⟩ := List.forall_mem_cons.mp hwait
    have hstep : step s = .next (s.holding c (wait ++ t :: ts)) :=
      busyKeepsPreviousResponse s w _ c hts hwr hwel (.inl hc)
    obtain ⟨u, hrun, hu⟩ := ih (s.holding c (wait ++ t :: ts)) rfl rfl hrest
    exact ⟨u, (run_succ Sys2Proof.core _ s _ hstep).trans hrun, hu⟩

/-- Settles O13. -/
theorem resetAbandonsCommand : Obligations.ResetAbandonsCommand := by
  intro s t ts hts hr
  have htick := State.tick_of_cons s t ts hts
  subst htick
  refine ⟨by simp [State.cmdReady, hr], ?_⟩
  rw [step_of_rst hr, State.resetOf, State.applyReset, State.advance, hts]
  rfl

/-- Settles O9: every step is one event of the handshake, and leads to a state. -/
theorem everyStateSteps : Obligations.EveryStateSteps := by
  intro s
  obtain ⟨_, u, hu⟩ := exists_stepsWith s
  exact ⟨u, hu.steps⟩

end
end
